-- ==== Sys2Proof/Word.lean ====
section
/-! DEFINITION. The word types of the block: event words, time stamps, raw analog results, bytes.
All values are unsigned, bit 0 the least significant (R14). -/

namespace Sys2Proof

/-- An input event word: always exactly 32 bits (R62, R80). -/
abbrev EventWord := BitVec 32

/-- A `Clock` value or a time stamp copied from it: CLOCK_W bits, 32 in this hardware (R6). -/
abbrev TimeStamp (clockW : Nat := 32) := BitVec clockW

/-- A raw analog result in millivolts, and a scaled value: RAW_W bits, 16 in this hardware, unsigned (R11). -/
abbrev Raw (rawW : Nat := 16) := BitVec rawW

/-- One byte of a serial line (R61). -/
abbrev Byte := BitVec 8

end Sys2Proof
end

