-- ==== Sys2Proof/Config.lean ====
section
/-! DEFINITION. What an implementation fixes: the parameters of 00_scope.md R6 to R12. The spec asks that
the model take every parameter as an argument (§3, R44), since the source's literals are unaudited (D17). The two
widths are the parameters `clockW` (CLOCK_W, R6) and `rawW` (RAW_W, R11) of the type `Machine.State`, with this
hardware's 32 and 16 as their defaults, and every operation of Machine/ takes them with its state. The constants
are the fields of a `Params`, which every operation that uses one takes; the values of this hardware are
`Machine.hardware` (Machine/Ops.lean). The step relation with every parameter an argument is `Machine.stepWith`
(Machine/Parametric.lean; log entry 7). -/

namespace Sys2Proof.Config

/-- ADC_CHANNEL (R12): OPEN in the spec, so nothing is known of its value. DESIGN CHOICE (log entry 6): its
width is open too, and the model takes a natural number. -/
opaque adcChannel : Nat

/-- The constants of the block. Times are counts of TICKs (R7, R8, R9). -/
structure Params where
  /-- DEBOUNCE_TIME (R7). -/
  debounceTime : Nat
  /-- DOUBLE_CLICK_TIME (R8). -/
  doubleClickTime : Nat
  /-- ADC_READ_INTERVAL (R9). -/
  adcReadInterval : Nat
  /-- SCALE_DIV (R10). -/
  scaleDiv : Nat
  /-- SCALE_DIV "must be nonzero" (R10, R16). -/
  scaleDiv_pos : 0 < scaleDiv
  /-- ADC_CHANNEL (R12). -/
  adcChannel : Nat
  deriving DecidableEq, Repr

end Sys2Proof.Config
end

