-- ==== Sys2Proof/Machine/Fields.lean ====
section
/-! DEFINITION. The fields of an event word (R80). They are those of R80 at RAW_W = 16, the default. At a larger RAW_W
the payload is widened and the reserved field gives way to it, as R82 asks; how is the model's choice (DESIGN CHOICE,
log entry 20). -/

namespace Sys2Proof

/-- The widest payload a 32-bit word has room for beside the op (R80; log entry 20). -/
def maxPayloadBits : Nat := 28

/-- The width of the payload: 16 bits (R80), and above RAW_W = 16 as many as RAW_W, while a word has room for them
(R82; log entry 20). -/
def payloadBits (rawW : Nat) : Nat := min maxPayloadBits (max 16 rawW)

/-- The payload's lowest bit: the payload is the top of the word (R80; log entry 20). -/
def payloadLow (rawW : Nat) : Nat := 32 - payloadBits rawW

/-- `op = w[3:0]` (R80). -/
def opField (w : EventWord) : BitVec 4 := w.extractLsb' 0 4

/-- The bits between the op and the payload: `rsv = w[15:4]` (R80, R82). -/
def rsvField (w : EventWord) (rawW : Nat := 16) : BitVec (payloadLow rawW - 4) := w.extractLsb' 4 (payloadLow rawW - 4)

/-- `payload = w[31:16]` (R80, R82). -/
def payloadField (w : EventWord) (rawW : Nat := 16) : BitVec (payloadBits rawW) :=
  w.extractLsb' (payloadLow rawW) (payloadBits rawW)

/-- The payload is a result of RAW_W bits, and the format holds every such result (R82, R87). Always so at
RAW_W = 16; the rest is log entry 20. -/
def payloadIsRaw (w : EventWord) (rawW : Nat := 16) : Bool :=
  decide (rawW ≤ maxPayloadBits) && decide ((payloadField w rawW).toNat < 2 ^ rawW)

end Sys2Proof
end

