-- ==== Sys2Proof/Syntax.lean ====
section
/-! DEFINITION. The instructions of the block: its six input events, one constructor per row of
spec/opcode_table.json (R2, R84). A button's identity is part of the opcode (R82). RAW_W is a parameter (R11, R44):
`Instr` with none given is this hardware's, at 16 bits. -/

namespace Sys2Proof

/-- One input event (R84). -/
inductive Instr (rawW : Nat := 16) where
  /-- TICK: the timer interrupt (R100). -/
  | tick
  /-- EDGE_A: the pin-change interrupt of button A (R111). -/
  | edgeA
  /-- EDGE_B: the pin-change interrupt of button B (R112). -/
  | edgeB
  /-- ITER: start one main-loop iteration (R190). -/
  | iter
  /-- ADC_DONE raw: conversion complete, the result in millivolts (R151, R82). -/
  | adcDone (raw : Raw rawW)
  /-- TX_DONE: serial transmit of the outstanding line complete (R175). -/
  | txDone
  deriving DecidableEq, Repr

end Sys2Proof
end

