-- ==== Sys2Proof/WellFormed.lean ====
section
/-! DEFINITION. Which event words are well formed (R83, R84, R85): a check on the word alone, said without the decoder. A
term of `Instr` needs no check: its one operand has exactly RAW_W bits (R82). -/

namespace Sys2Proof

/-- The op names an operation: 1 to 6 (R84). -/
def opDefined (w : EventWord) : Bool := 1 ≤ (opField w).toNat && (opField w).toNat ≤ 6

/-- The reserved field is zero (R83). -/
def rsvZero (w : EventWord) (rawW : Nat := 16) : Bool := rsvField w rawW == 0

/-- Only ADC_DONE has a payload (R83), a result (R82). -/
def payloadAllowed (w : EventWord) (rawW : Nat := 16) : Bool :=
  if opField w = 5 then payloadIsRaw w rawW else payloadField w rawW == 0

/-- A word that spells an operation (R83, R84, R85). -/
def wordWellFormed (w : EventWord) (rawW : Nat := 16) : Bool :=
  opDefined w && rsvZero w rawW && payloadAllowed w rawW

end Sys2Proof
end

