-- ==== Sys2Proof/Decode.lean ====
section
/-! DEFINITION. Decoding of event words, total and rejecting by name (R80 to R85), and after it the encoder. Both are
given at every RAW_W (R44, R82): R80's format is the one at RAW_W = 16, and the one at another RAW_W is log entry
20's. -/

namespace Sys2Proof

/-- Why a word is reserved (R83, R85). -/
inductive Reserved where
  /-- `w[15:4]` is not zero (R83). -/
  | rsvBits
  /-- `op` is 0 or 7 to 15 (R84). -/
  | opcode
  /-- A payload on an operation other than ADC_DONE (R83). -/
  | payload
  /-- An ADC_DONE whose payload is no result of RAW_W bits, or at a RAW_W too wide for a word (R82, R87). Never at
  RAW_W = 16: DESIGN CHOICE, log entry 20. -/
  | rawRange
  deriving DecidableEq, Repr

/-- What a word spells: an event, or nothing. -/
inductive Decoded (rawW : Nat := 16) where
  | event (i : Instr rawW)
  | reserved (why : Reserved)
  deriving DecidableEq, Repr

/-- An event that has no operand: its payload must be zero (R83). -/
def withoutPayload {rawW : Nat} (w : EventWord) (i : Instr rawW) : Decoded rawW :=
  if payloadField w rawW = 0 then .event i else .reserved .payload

/-- ADC_DONE: `raw = zext_RAW_W(payload)`, unscaled (R82). -/
def decodeAdcDone (rawW : Nat) (w : EventWord) : Decoded rawW :=
  if payloadIsRaw w rawW then .event (.adcDone ((payloadField w rawW).setWidth rawW)) else .reserved .rawRange

/-- The event a well-placed op names (R81, R84). -/
def decodeOp (rawW : Nat) (w : EventWord) : Decoded rawW :=
  match (opField w).toNat with
  | 1 => withoutPayload w .tick
  | 2 => withoutPayload w .edgeA
  | 3 => withoutPayload w .edgeB
  | 4 => withoutPayload w .iter
  | 5 => decodeAdcDone rawW w
  | 6 => withoutPayload w .txDone
  | _ => .reserved .opcode

/-- Decode one event word of a machine with this RAW_W (R81, R83, R85). There is one format, no prefix and no mode
(R80, R90). -/
def decodeAt (rawW : Nat) (w : EventWord) : Decoded rawW :=
  if rsvField w rawW = 0 then decodeOp rawW w else .reserved .rsvBits

/-- Decode one event word of this hardware, at RAW_W = 16 (R80, R82). -/
def decode (w : EventWord) : Decoded := decodeAt 16 w

/-- The event a decoded word spells, if any. -/
def Decoded.toOption {rawW : Nat} : Decoded rawW → Option (Instr rawW)
  | .event i => some i
  | .reserved _ => none

/-- The decoder read on a number of `nbits` bits. An event is always one whole 32-bit word (R62, R80). DESIGN CHOICE
(log entry 4), since R80 has no longer or shorter form and R62 no partial word: a number given with more than 32 bits
spells none, and one given with fewer stands for the 32-bit word whose higher bits are zero, and spells what that
whole word spells. -/
def decodeTableWord (nbits w : Nat) : Option Instr :=
  if nbits ≤ 32 ∧ w < 2 ^ nbits then (decode (BitVec.ofNat 32 w)).toOption else none

/-- The word of an event (R84). At a RAW_W above 28 ADC_DONE has none, since no word holds every result there (log
entry 20): the one given for it does not decode. -/
def encodeAt (rawW : Nat) : Instr rawW → EventWord
  | .tick => 0x00000001#32
  | .edgeA => 0x00000002#32
  | .edgeB => 0x00000003#32
  | .iter => 0x00000004#32
  | .adcDone raw => (raw.setWidth 32 <<< payloadLow rawW) ||| 0x00000005#32
  | .txDone => 0x00000006#32

/-- The word of an event of this hardware, at RAW_W = 16: ADC_DONE's is `pppp0005` (R84). -/
def encode (i : Instr) : EventWord := encodeAt 16 i

end Sys2Proof
end

