-- ==== Sys2Proof/Machine/State.lean ====
section
/-! DEFINITION. The state of the block (10_state.md R20 to R34, R41 to R43), as plain data, its reset value
(70_reset_and_hazards.md R241), and the reasons a step can stop (60_exceptions.md R223). -/

namespace Sys2Proof.Machine

/-- The two buttons (R13). -/
inductive Button where
  | btnA
  | btnB
  deriving DecidableEq, Repr

/-- The main loop's position in its iteration (R33). -/
inductive Stage where
  /-- 0: no iteration in progress. -/
  | idle
  /-- 1: next, the sampler's interval check (R150). -/
  | analog
  /-- 2: blocked until ADC_DONE (R151). -/
  | adcWait
  /-- 3: next, edge consumption of classifier A (R131). -/
  | clsAEdge
  /-- 4: next, timeout check of classifier A (R132). -/
  | clsATo
  /-- 5: next, edge consumption of classifier B (R131). -/
  | clsBEdge
  /-- 6: next, timeout check of classifier B (R132). -/
  | clsBTo
  /-- 7: unused, never written, refused (R33). -/
  | unused
  deriving DecidableEq, Repr

/-- An output event (R42). -/
inductive OutEvent where
  /-- Clear the timer's pending interrupt. -/
  | tickAck
  /-- Clear a button's pending pin interrupt. -/
  | edgeAck (b : Button)
  /-- Start a conversion on the channel. -/
  | adcStart (channel : Nat)
  /-- Transmit one whole line, first byte first (R61). -/
  | txLine (bytes : List Byte)
  deriving DecidableEq, Repr

/-- An input of the block (R41). -/
inductive HostInput where
  /-- The reset input is driven: asserted or released (R240). -/
  | rst (asserted : Bool)
  /-- The host offers an event word (R80). -/
  | offer (w : EventWord)
  deriving DecidableEq, Repr

/-- The registers of one button (R22 to R25, R27, R28). -/
structure ButtonRegs (clockW : Nat := 32) where
  /-- `last_recorded_time[b]`, the debounce gate (R22). -/
  lastRecordedTime : TimeStamp clockW
  /-- `press_time[b]` (R23). -/
  pressTime : TimeStamp clockW
  /-- `pressed[b]`, the handoff flag (R24). -/
  pressed : Bool
  /-- `pending_click_time[b]`, 0 for Idle (R25). -/
  pendingClickTime : TimeStamp clockW
  /-- `edge_seen[b]`, the iteration's copy of `pressed[b]` (R27). -/
  edgeSeen : Bool
  /-- `edge_time[b]`, the iteration's copy of `press_time[b]` (R28). -/
  edgeTime : TimeStamp clockW
  deriving DecidableEq, Repr

/-- The whole state. `clock` to `txBusy` are the context record of R20, which holds nothing else. `trace` is the
output trace (R43). `rst` and `inputs` are the block's inputs (R41), held here so that a step is a function of
the state alone. CLOCK_W and RAW_W are parameters (R6, R11, R44); `State` with neither given is this hardware's,
at 32 and 16 bits. -/
structure State (clockW : Nat := 32) (rawW : Nat := 16) where
  /-- `Clock` (R21). -/
  clock : TimeStamp clockW
  /-- The registers of button A. -/
  btnA : ButtonRegs clockW
  /-- The registers of button B. -/
  btnB : ButtonRegs clockW
  /-- `now`, the iteration's single reading of Clock (R29). -/
  now : TimeStamp clockW
  /-- `last_sample_time` (R30). -/
  lastSampleTime : TimeStamp clockW
  /-- `last_sent_value` (R31). -/
  lastSentValue : Raw rawW
  /-- `last_sent_valid` (R32). -/
  lastSentValid : Bool
  /-- `stage` (R33). -/
  stage : Stage
  /-- `tx_busy` (R34). -/
  txBusy : Bool
  /-- Every output event since the last reset, oldest first (R43). -/
  trace : List OutEvent
  /-- The level of the reset input (R41, R240). -/
  rst : Bool
  /-- DESIGN CHOICE (log entry 1): what the host offers and has not been taken yet, in the order in which the
  block is to consider it. -/
  inputs : List HostInput
  deriving DecidableEq, Repr

/-- Nothing raises a fault: the block has no exceptions (R210), and a wait that never ends is no stop of the
machine, since the interrupt context goes on (R223). Safe: the type is empty. -/
inductive Fault where
  deriving DecidableEq, Repr

/-- Why the model gives a step no meaning (R223). -/
inductive Refusal where
  /-- Raised by an arm of exec whose instruction has no meaning yet; none is left. Safe. -/
  | notModelled (mnemonic : String)
  /-- Raised by the step that takes a reserved or malformed event word (R85). Safe: the hardware's "no effect" on
  such a word is then used by no claim. -/
  | reservedWord (w : EventWord) (why : Reserved)
  /-- Raised where `stage` holds its unused value 7 (R33, R191, R223). Safe: no run reaches it. -/
  | unusedStage
  deriving DecidableEq, Repr

/-- A button's registers after reset (R241). -/
def ButtonRegs.reset (clockW : Nat := 32) : ButtonRegs clockW where
  lastRecordedTime := 0
  pressTime := 0
  pressed := false
  pendingClickTime := 0
  edgeSeen := false
  edgeTime := 0

/-- The machine right after reset, at any widths: the table of R241 and an empty trace (R240). `rst` is released and nothing is
offered (log entries 3 and 4). -/
def State.resetAt (clockW rawW : Nat) : State clockW rawW where
  clock := 0
  btnA := ButtonRegs.reset clockW
  btnB := ButtonRegs.reset clockW
  now := 0
  lastSampleTime := 0
  lastSentValue := 0
  lastSentValid := false
  stage := .idle
  txBusy := false
  trace := []
  rst := false
  inputs := []

/-- This hardware right after reset (R6, R11, R241). -/
def State.reset : State := State.resetAt 32 16

end Sys2Proof.Machine
end

