-- ==== Sys2Proof/Machine/Ops.lean ====
section
/-! DEFINITION. The parameters' values and the primitives of the spec's pseudocode (R15, R17), and the reset
operation (R240). Interrupt entry saves nothing and return restores nothing (R215, R216), and the block raises no
exception (R210), so there is no operation that takes one. -/

namespace Sys2Proof.Machine

variable {clockW rawW : Nat}

/-- The value this hardware takes for each parameter (R7 to R10, R12). The source's literals are unaudited
(D17, log entry 7). The widths, 32 and 16 bits, are the defaults of `State` (R6, R11). -/
def hardware : Config.Params where
  debounceTime := 50
  doubleClickTime := 500
  adcReadInterval := 100
  scaleDiv := 50
  scaleDiv_pos := by decide
  adcChannel := Config.adcChannel

/-- `inc_W(a) = (a + 1) mod 2^CLOCK_W` (R15). -/
def incW (a : TimeStamp clockW) : TimeStamp clockW := a + 1

/-- `elapsed(a, b) = (a - b) mod 2^CLOCK_W` (R15), as the non-negative integer that is compared with a constant. -/
def elapsed (a b : TimeStamp clockW) : Nat := (a - b).toNat

/-- `emit O`: append an output event to the trace (R17, R43). -/
def emit (o : OutEvent) (s : State clockW rawW) : State clockW rawW := { s with trace := s.trace ++ [o] }

/-- `stage <- v`. -/
def setStage (v : Stage) (s : State clockW rawW) : State clockW rawW := { s with stage := v }

/-- The registers of a button: `r[b]` (R17). -/
def btn (s : State clockW rawW) : Button → ButtonRegs clockW
  | .btnA => s.btnA
  | .btnB => s.btnB

/-- Write the registers of a button. -/
def setBtn (b : Button) (r : ButtonRegs clockW) (s : State clockW rawW) : State clockW rawW :=
  match b with
  | .btnA => { s with btnA := r }
  | .btnB => { s with btnB := r }

/-- The effect of an asserted `rst`: every register at its value of R241, the trace empty, nothing emitted
(R240). The input line itself and the host's offers are no registers of the block. -/
def applyReset (s : State clockW rawW) : State clockW rawW := 
  { State.resetAt clockW rawW with rst := s.rst, inputs := s.inputs }

end Sys2Proof.Machine
end

