-- ==== Sys2Proof/Machine/Edge.lean ====
section
/-! DEFINITION. EDGE_A and EDGE_B (41_debounced_edge_detector.md). -/

namespace Sys2Proof.Machine

variable {clockW rawW : Nat}

/-- Does the debounce gate accept an edge of this button now? Strictly more than DEBOUNCE_TIME since the last
accepted one (R110 step 3). -/
def edgeAccepted (P : Config.Params) (b : Button) (s : State clockW rawW) : Bool :=
  decide (P.debounceTime < elapsed s.clock (btn s b).lastRecordedTime)

/-- The registers of a button after an edge accepted at time `t` (R110 step 3). -/
def recordEdge (t : TimeStamp clockW) (r : ButtonRegs clockW) : ButtonRegs clockW :=
  { r with lastRecordedTime := t, pressTime := t, pressed := true }

/-- EDGE_b (R110): acknowledge the pin, then record the edge or discard it. -/
def edge (P : Config.Params) (b : Button) (s : State clockW rawW) : State clockW rawW :=
  if edgeAccepted P b s then setBtn b (recordEdge s.clock (btn s b)) (emit (.edgeAck b) s)
  else emit (.edgeAck b) s

/-- The meaning of EDGE_A (R111): always accepted. -/
def execEdgeA (s : State) : Host.Outcome State Fault Refusal := .next (edge hardware .btnA s)

/-- The meaning of EDGE_B (R112): always accepted. -/
def execEdgeB (s : State) : Host.Outcome State Fault Refusal := .next (edge hardware .btnB s)

end Sys2Proof.Machine
end

