-- ==== Sys2Proof/Machine/Operands.lean ====
section
/-! DEFINITION. The scaling of the one operand of the block, ADC_DONE's result (R151, R152), and what each
button stands for (R130). -/

namespace Sys2Proof.Machine

variable {clockW rawW : Nat}

/-- `scaled = raw div SCALE_DIV`, truncated (R16, R151, R152). -/
def scaled (P : Config.Params) (raw : Raw rawW) : Raw rawW := 
  BitVec.ofNat rawW (raw.toNat / P.scaleDiv)

/-- The stage after CLS_b_EDGE (R131, R192). -/
def afterEdge : Button → Stage
  | .btnA => .clsATo
  | .btnB => .clsBTo

/-- The stage after CLS_b_TO (R132, R192). -/
def afterTo : Button → Stage
  | .btnA => .clsBEdge
  | .btnB => .idle

/-- The 3-bit encoding of `stage` (R33). -/
def stageCode : Stage → BitVec 3
  | .idle => 0
  | .analog => 1
  | .adcWait => 2
  | .clsAEdge => 3
  | .clsATo => 4
  | .clsBEdge => 5
  | .clsBTo => 6
  | .unused => 7

/-- The stage a 3-bit value stands for (R33). -/
def stageOfCode (c : BitVec 3) : Stage :=
  match c.toNat with
  | 0 => .idle
  | 1 => .analog
  | 2 => .adcWait
  | 3 => .clsAEdge
  | 4 => .clsATo
  | 5 => .clsBEdge
  | 6 => .clsBTo
  | _ => .unused

end Sys2Proof.Machine
end

