-- ==== Sys2Proof/Machine/Formatter.lean ====
section
/-! DEFINITION. The event formatter's lines and its transmit primitive (44_event_formatter.md R170 to R174). The
character codes are PRESUMED (log entry 9): the spec gives them from general knowledge. -/

namespace Sys2Proof.Machine

variable {clockW rawW : Nat}

/-- Every line ends with line feed, then carriage return, in that order (R174). -/
def terminator : List Byte := [0x0A, 0x0D]

/-- The text of a button's double-click line (R130, R172). -/
def doubleText : Button → List Byte
  | .btnA => [0x70, 0x72, 0x65, 0x76, 0x69, 0x6F, 0x75, 0x73]
  | .btnB => [0x6E, 0x65, 0x78, 0x74]

/-- The text of a button's timeout line (R130, R172). -/
def timeoutText : Button → List Byte
  | .btnA => [0x73, 0x74, 0x6F, 0x70]
  | .btnB => [0x70, 0x6C, 0x61, 0x79, 0x5F, 0x70, 0x61, 0x75, 0x73, 0x65]

/-- `DOUBLE_LINE[b]` (R130). -/
def doubleLine (b : Button) : List Byte := doubleText b ++ terminator

/-- `TIMEOUT_LINE[b]` (R130). -/
def timeoutLine (b : Button) : List Byte := timeoutText b ++ terminator

/-- The byte of one decimal digit (R173). -/
def digit (d : Nat) : Byte := BitVec.ofNat 8 (0x30 + d)

/-- The decimal digits of a number of at most `n + 1` digits, most significant first (R61, R173). -/
def decDigits : Nat → Nat → List Byte
  | 0, v => [digit (v % 10)]
  | n + 1, v => if v < 10 then [digit v] else decDigits n (v / 10) ++ [digit (v % 10)]

/-- `Dec(v)` (R173): no sign, no leading zeros, no padding, no clamp. A value of RAW_W bits has at most RAW_W + 1
digits. -/
def dec (v : Raw rawW) : List Byte := decDigits rawW v.toNat

/-- The line of an analog value (R171, R173). -/
def valueLine (v : Raw rawW) : List Byte := dec v ++ terminator

/-- `Emit(line)` (R170): hand the whole line over, and block the loop until TX_DONE. -/
def emitLine (line : List Byte) (s : State clockW rawW) : State clockW rawW :=
  { emit (.txLine line) s with txBusy := true }

/-- The outstanding line is complete: `tx_busy <- 0` (R175). -/
def clearTx (s : State clockW rawW) : State clockW rawW := { s with txBusy := false }

end Sys2Proof.Machine
end

