-- ==== Sys2Proof/Machine/Analog.lean ====
section
/-! DEFINITION. The sampler's interval check and the delivery of a result (43_analog_sample_interval_timer.md). -/

namespace Sys2Proof.Machine

variable {clockW rawW : Nat}

/-- Is a sample due? At least ADC_READ_INTERVAL since the last sampling iteration (R150, non-strict). -/
def sampleDue (P : Config.Params) (s : State clockW rawW) : Bool :=
  decide (P.adcReadInterval ≤ elapsed s.now s.lastSampleTime)

/-- ANALOG (R150): start a conversion and wait for it, or go on. -/
def analogCheck (P : Config.Params) (s : State clockW rawW) : State clockW rawW :=
  if sampleDue P s then
    setStage .adcWait (emit (.adcStart P.adcChannel) { s with lastSampleTime := s.now })
  else setStage .clsAEdge s

/-- Is a scaled value transmitted? It is the first since reset, or it differs from the last one sent (R151). -/
def mustSend (v : Raw rawW) (s : State clockW rawW) : Bool := !s.lastSentValid || v != s.lastSentValue

/-- ADC_DONE in the wait, before RunLoop (R151 steps 3 and 4). -/
def deliver (P : Config.Params) (raw : Raw rawW) (s : State clockW rawW) : State clockW rawW :=
  if mustSend (scaled P raw) s then
    emitLine (valueLine (scaled P raw))
      { setStage .clsAEdge s with lastSentValue := scaled P raw, lastSentValid := true }
  else setStage .clsAEdge s

end Sys2Proof.Machine
end

