-- ==== Sys2Proof/Machine/Classifier.lean ====
section
/-! DEFINITION. The classifier stages CLS_b_EDGE and CLS_b_TO (42_button_click_classifier.md). -/

namespace Sys2Proof.Machine

variable {clockW rawW : Nat}

/-- Does an edge stamped `t` complete the pending click? A click is pending and the gap is strictly less than
DOUBLE_CLICK_TIME (R131). -/
def completesDouble (P : Config.Params) (pending t : TimeStamp clockW) : Bool :=
  pending != 0 && decide (elapsed t pending < P.doubleClickTime)

/-- Has the pending click timed out at `now`? Strictly more than DOUBLE_CLICK_TIME (R132). -/
def timedOut (P : Config.Params) (pending now : TimeStamp clockW) : Bool :=
  pending != 0 && decide (P.doubleClickTime < elapsed now pending)

/-- The registers of a button once its edge is consumed and its classifier holds `p` (R131). -/
def consumeEdge (p : TimeStamp clockW) (r : ButtonRegs clockW) : ButtonRegs clockW :=
  { r with edgeSeen := false, pendingClickTime := p }

/-- CLS_b_EDGE: edge consumption (R131). -/
def clsEdge (P : Config.Params) (b : Button) (s : State clockW rawW) : State clockW rawW :=
  if (btn s b).edgeSeen then
    if completesDouble P (btn s b).pendingClickTime (btn s b).edgeTime then
      emitLine (doubleLine b) (setStage (afterEdge b) (setBtn b (consumeEdge 0 (btn s b)) s))
    else setStage (afterEdge b) (setBtn b (consumeEdge (btn s b).edgeTime (btn s b)) s)
  else setStage (afterEdge b) s

/-- CLS_b_TO: timeout check (R132). -/
def clsTo (P : Config.Params) (b : Button) (s : State clockW rawW) : State clockW rawW :=
  if timedOut P (btn s b).pendingClickTime s.now then
    emitLine (timeoutLine b)
      (setStage (afterTo b) (setBtn b { btn s b with pendingClickTime := 0 } s))
  else setStage (afterTo b) s

end Sys2Proof.Machine
end

