-- ==== Sys2Proof/Machine/Flags.lean ====
section
/-! DEFINITION. The block has no condition flags (R38). Its status outputs (R35) and the classifier state, which
is a function of one register (R26). -/

namespace Sys2Proof.Machine

variable {clockW rawW : Nat}

/-- `loop_idle` (R35): no iteration is in progress and no line is outstanding. -/
def loopIdle (s : State clockW rawW) : Bool := decide (s.stage = .idle) && !s.txBusy

/-- `adc_busy` (R35). -/
def adcBusy (s : State clockW rawW) : Bool := decide (s.stage = .adcWait)

/-- `tx_pending` (R35). -/
def txPending (s : State clockW rawW) : Bool := s.txBusy

/-- The classifier's two states (R26). -/
inductive ClassifierState where
  | idle
  | pending
  deriving DecidableEq, Repr

/-- Idle exactly when `pending_click_time[b] = 0` (R26). -/
def classifierState (s : State clockW rawW) (b : Button) : ClassifierState :=
  if (btn s b).pendingClickTime = 0 then .idle else .pending

end Sys2Proof.Machine
end

