-- ==== Sys2Proof/Machine/Sequencer.lean ====
section
/-! DEFINITION. The main-loop sequencer: RunLoop, ITER, and the two completions that resume an iteration
(45_main_loop_sequencer.md, R151, R175). -/

namespace Sys2Proof.Machine

variable {clockW rawW : Nat}

/-- The negation of RunLoop's loop condition: the iteration has blocked or ended (R191). -/
def loopBlocked (s : State clockW rawW) : Bool :=
  s.txBusy || decide (s.stage = .idle) || decide (s.stage = .adcWait)

/-- The action of the present stage (R191). IDLE and ADC_WAIT have none, and 7 is refused before this is asked. -/
def stageAction (P : Config.Params) (s : State clockW rawW) : State clockW rawW :=
  match s.stage with
  | .analog => analogCheck P s
  | .clsAEdge => clsEdge P .btnA s
  | .clsATo => clsTo P .btnA s
  | .clsBEdge => clsEdge P .btnB s
  | .clsBTo => clsTo P .btnB s
  | .idle => s
  | .adcWait => s
  | .unused => s

/-- RunLoop's loop, at most `n` actions (R191). -/
def runLoopFor (P : Config.Params) :
    Nat → State clockW rawW → Host.Outcome (State clockW rawW) Fault Refusal
  | 0, s => .next s
  | n + 1, s =>
    if loopBlocked s then .next s
    else if s.stage = .unused then .refused .unusedStage
    else runLoopFor P n (stageAction P s)

/-- RunLoop (R191). "The loop runs at most five actions and always terminates": DEDUCED, log entry 10. -/
def runLoop (P : Config.Params) (s : State clockW rawW) : Host.Outcome (State clockW rawW) Fault Refusal :=
  runLoopFor P 5 s

/-- One button's part of the snapshot (R190). -/
def snapshotBtn (r : ButtonRegs clockW) : ButtonRegs clockW :=
  if r.pressed then { r with edgeSeen := true, edgeTime := r.pressTime, pressed := false }
  else { r with edgeSeen := false }

/-- The snapshot: one atomic read of the interrupt-committed state (R190, R69). -/
def snapshot (s : State clockW rawW) : State clockW rawW :=
  { s with now := s.clock, btnA := snapshotBtn s.btnA, btnB := snapshotBtn s.btnB }

/-- ITER (R190). While the loop is busy the event is held: nothing changes (R17, R86, R194). -/
def iterWith (P : Config.Params) (s : State clockW rawW) : Host.Outcome (State clockW rawW) Fault Refusal :=
  if loopIdle s then runLoop P (setStage .analog (snapshot s)) else .next s

/-- ADC_DONE (R151), ignored outside the wait (R155). -/
def adcDoneWith (P : Config.Params) (raw : Raw rawW) (s : State clockW rawW) :
    Host.Outcome (State clockW rawW) Fault Refusal :=
  if adcBusy s then runLoop P (deliver P raw s) else .next s

/-- TX_DONE (R175), ignored when no line is outstanding. -/
def txDoneWith (P : Config.Params) (s : State clockW rawW) : Host.Outcome (State clockW rawW) Fault Refusal :=
  if s.txBusy then runLoop P (clearTx s) else .next s

/-- The meaning of ITER (R190). -/
def execIter (s : State) : Host.Outcome State Fault Refusal := iterWith hardware s

/-- The meaning of ADC_DONE (R151). -/
def execAdcDone (raw : Raw) (s : State) : Host.Outcome State Fault Refusal := adcDoneWith hardware raw s

/-- The meaning of TX_DONE (R175). -/
def execTxDone (s : State) : Host.Outcome State Fault Refusal := txDoneWith hardware s

end Sys2Proof.Machine
end

