-- ==== Sys2Proof/Machine/Tick.lean ====
section
/-! DEFINITION. TICK (40_millisecond_ticker.md). -/

namespace Sys2Proof.Machine

variable {clockW rawW : Nat}

/-- TICK (R100): acknowledge the timer, then count one millisecond. -/
def tick (s : State clockW rawW) : State clockW rawW := { emit .tickAck s with clock := incW s.clock }

/-- The meaning of TICK (R100): always accepted. -/
def execTick (s : State) : Host.Outcome State Fault Refusal := .next (tick s)

end Sys2Proof.Machine
end

