-- ==== Sys2Proof/Machine/Dispatch.lean ====
section
/-! DEFINITION. The transition of each input event, one arm per row of the opcode map (R84). -/

namespace Sys2Proof.Machine

def exec (i : Instr) (s : State) : Host.Outcome State Fault Refusal :=
  match i with
  | .tick => Sys2Proof.Machine.execTick s
  | .edgeA => Sys2Proof.Machine.execEdgeA s
  | .edgeB => Sys2Proof.Machine.execEdgeB s
  | .iter => Sys2Proof.Machine.execIter s
  | .adcDone raw => Sys2Proof.Machine.execAdcDone raw s
  | .txDone => Sys2Proof.Machine.execTxDone s

end Sys2Proof.Machine
end

