-- ==== Sys2Proof/Machine/Input.lean ====
section
/-! DEFINITION. Which of the block's inputs is taken next (R41, R86, R240), and the hardware's own order for events
offered together (R214). -/

namespace Sys2Proof.Machine

variable {clockW rawW : Nat}

/-- The acceptance condition of an event (R86): only ITER has one. -/
def accepts (s : State clockW rawW) : Instr rawW → Bool
  | .tick => true
  | .edgeA => true
  | .edgeB => true
  | .iter => loopIdle s
  | .adcDone _ => true
  | .txDone => true

/-- May an offered event be taken now? Only while `rst` is released (R240), and when its own acceptance condition
holds (R86). -/
def offerAccepted (s : State clockW rawW) (i : Instr rawW) : Bool := !s.rst && accepts s i

/-- May this input be taken now? The reset line always; an offered event when it is accepted. A reserved word is
taken while `rst` is released, and refused (R85; log entry 12). -/
def inputAccepted (s : State clockW rawW) : HostInput → Bool
  | .rst _ => true
  | .offer w =>
    match decodeAt rawW w with
    | .event i => offerAccepted s i
    | .reserved _ => !s.rst

/-- The first input that may be taken, and the others in their order. -/
def firstAccepted (p : HostInput → Bool) : List HostInput → Option (HostInput × List HostInput)
  | [] => none
  | x :: xs =>
    if p x then some (x, xs)
    else match firstAccepted p xs with
      | none => none
      | some (y, ys) => some (y, x :: ys)

/-- Does driving the reset input to this level reset the registers? When it is asserted, and when it is released
after that (R240; log entry 3). -/
def driveResets (level : Bool) (s : State clockW rawW) : Bool := level || s.rst

/-- Drive the reset input (R240): while it is asserted, and up to its release, the registers hold their reset
values. -/
def driveRst (level : Bool) (s : State clockW rawW) : State clockW rawW :=
  if driveResets level s then { applyReset s with rst := level } else s

/-- What the next step is to do. -/
inductive Fetched (clockW : Nat := 32) (rawW : Nat := 16) where
  /-- Nothing offered can be taken: no transition (R86, R198). -/
  | nothing
  /-- The reset line is driven; the state after that. -/
  | resetLine (s : State clockW rawW)
  /-- An event is accepted, in this state. -/
  | run (i : Instr rawW) (s : State clockW rawW)
  /-- The model has no meaning for the step. -/
  | stop (r : Refusal)
  deriving DecidableEq, Repr

/-- Take the first input that may be taken (R18, R86; log entry 1). A held offer stays where it is and delays no
other (R86, R194). A state whose `stage` is 7 is refused, but where the reset input resets it (R33, R223, R240; log
entry 5). -/
def fetch (s : State clockW rawW) : Fetched clockW rawW :=
  match firstAccepted (inputAccepted s) s.inputs with
  | some (.rst level, rest) =>
    if s.stage = .unused ∧ driveResets level s = false then .stop .unusedStage
    else .resetLine (driveRst level { s with inputs := rest })
  | some (.offer w, rest) =>
    if s.stage = .unused then .stop .unusedStage
    else match decodeAt rawW w with
      | .event i => .run i { s with inputs := rest }
      | .reserved why => .stop (.reservedWord w why)
  | none => if s.stage = .unused then .stop .unusedStage else .nothing

/-- One step of a machine whose events run by `run`: the next input that may be taken has its effect (R3, R66). With
nothing to take the block rests, since it never starts an iteration by itself (R198; log entry 2). -/
def stepBy (run : Instr rawW → State clockW rawW → Host.Outcome (State clockW rawW) Fault Refusal)
    (s : State clockW rawW) : Host.Outcome (State clockW rawW) Fault Refusal :=
  match fetch s with
  | .nothing => .next s
  | .resetLine s' => .next s'
  | .run i s' => run i s'
  | .stop r => .refused r

/-- The hardware's tie-break among events offered together: TICK, EDGE_A, EDGE_B, ADC_DONE, TX_DONE, ITER (R214). -/
def tieBreakRank : Instr → Nat
  | .tick => 0
  | .edgeA => 1
  | .edgeB => 2
  | .adcDone _ => 3
  | .txDone => 4
  | .iter => 5

/-- Put an event before the first later-ranked or equal one. -/
def insertByRank (i : Instr) : List Instr → List Instr
  | [] => [i]
  | j :: js => if tieBreakRank i ≤ tieBreakRank j then i :: j :: js else j :: insertByRank i js

/-- The order in which a hardware implementation takes events offered together (R214); the edges of one button keep
their order (R68). DESIGN CHOICE (log entry 14): R214 ranks kinds only and R68 speaks only of edges, so the order of two
ADC_DONE with different results is open, and the model keeps the one in which they are offered; two events of any other
kind are the same event. The step itself admits every order of `inputs`. -/
def hardwareOrder : List Instr → List Instr
  | [] => []
  | i :: is => insertByRank i (hardwareOrder is)

end Sys2Proof.Machine
end

