-- ==== Sys2Proof/Machine/Step.lean ====
section
/-! DEFINITION. One step of this hardware, and the state that offers it one event word. -/

namespace Sys2Proof.Machine

/-- One step of the machine (R3, R66): the next input that may be taken has its effect. -/
def step (s : State) : Host.Outcome State Fault Refusal := stepBy exec s

/-- The state in which the next step considers one event word, and nothing else: it is the host's only offer, and
`rst` is released (log entry 4). DESIGN CHOICE (log entry 4), since every event is one whole word of 32 bits and there
is no shorter, longer or partial one (R62, R80): a `w` given with fewer than 32 bits is offered as the 32-bit word whose
higher bits are zero, and of one given with more than 32 bits only the low 32 are offered, although such a `w` spells
no event (`decodeTableWord`). -/
def State.withFetchWord (s : State) (nbits w : Nat) : State :=
  { s with rst := false, inputs := [.offer (BitVec.ofNat 32 (w % 2 ^ nbits))] }

end Sys2Proof.Machine
end

