-- ==== Sys2Proof/Machine/Trace.lean ====
section
/-! DEFINITION. Event traces: pseudo-operations and their expansion (R88), playing a trace line by line (R88),
the spelling of output records (R89) and the serial observation (R43). -/

namespace Sys2Proof.Machine

/-- One line of a trace: an event (R87) or a pseudo-operation (R88). -/
inductive TraceLine where
  | event (i : Instr)
  /-- `TICKS n`. -/
  | ticks (n : Nat)
  /-- `ADVANCE_TO t`. -/
  | advanceTo (t : TimeStamp)
  /-- `STEP`. -/
  | step
  /-- `SAMPLE raw`. -/
  | sample (raw : Raw)
  /-- `ACK`. -/
  | ack
  deriving DecidableEq, Repr

/-- The plain events of a line (R88); `clock` is Clock when the line is reached. -/
def expand (clock : TimeStamp) : TraceLine → List Instr
  | .event i => [i]
  | .ticks n => List.replicate n .tick
  | .advanceTo t => List.replicate (elapsed t clock) .tick
  | .step => [.iter]
  | .sample raw => [.adcDone raw]
  | .ack => [.txDone]

/-- Offer events one after another; `none` where one of them is held (R86). R87 and R88 have no line that drives `rst`
and do not say what a line does while it is asserted: DESIGN CHOICE (log entry 13), it is held, since no event is
accepted then (R240). A state whose `stage` is 7 is refused, whatever is to be played in it, as by a step (R33, R223; log
entry 5). -/
def playEvents : List Instr → State → Option (Host.Outcome State Fault Refusal)
  | [], s => if s.stage = .unused then some (.refused .unusedStage) else some (.next s)
  | i :: is, s =>
    if s.stage = .unused then some (.refused .unusedStage)
    else if offerAccepted s i then
      match exec i s with
      | .next s' => playEvents is s'
      | .fault f => nomatch f
      | .refused r => some (.refused r)
    else none

/-- How the playing of a trace stands. -/
inductive Played where
  /-- Every line was taken. -/
  | finished (s : State)
  /-- The first remaining line is held: the trace stays there (R88). -/
  | held (rest : List TraceLine) (s : State)
  /-- The model has no meaning for the state (R33, R223). -/
  | refused (r : Refusal)
  deriving DecidableEq, Repr

/-- Play a trace (R88): "The trace then stays at that line until the held event can be taken". A line of several
events is held at its first or not at all: they are TICKs, and only `rst` holds a TICK (R102, R240), which no line
changes. A state whose `stage` is 7 is refused, also where no line is left (R33, R223; log entry 5). -/
def play : List TraceLine → State → Played
  | [], s => if s.stage = .unused then .refused .unusedStage else .finished s
  | l :: ls, s =>
    match playEvents (expand s.clock l) s with
    | none => .held (l :: ls) s
    | some (.next s') => play ls s'
    | some (.fault f) => nomatch f
    | some (.refused r) => .refused r

/-- The serial observation: the bytes of the `TxLine` events, in trace order (R43). -/
def serialBytes : List OutEvent → List Byte
  | [] => []
  | .txLine bytes :: os => bytes ++ serialBytes os
  | .tickAck :: os => serialBytes os
  | .edgeAck _ :: os => serialBytes os
  | .adcStart _ :: os => serialBytes os

/-- The character a byte of a line stands for in a record (R172). -/
def byteChar (x : Byte) : Char := Char.ofNat x.toNat

/-- A line's bytes as a record spells them: LF and CR as the escapes the spec writes (R89). -/
def spellBytes : List Byte → List Char
  | [] => []
  | x :: xs =>
    (if x = 0x0A then ['\\', 'n'] else if x = 0x0D then ['\\', 'r'] else [byteChar x]) ++ spellBytes xs

/-- The record of an output event (R89). The channel is spelled by its name, since its value is open (R12). -/
def record : OutEvent → List Char
  | .tickAck => ['T', 'i', 'c', 'k', 'A', 'c', 'k']
  | .edgeAck .btnA => ['E', 'd', 'g', 'e', 'A', 'c', 'k', '(', 'A', ')']
  | .edgeAck .btnB => ['E', 'd', 'g', 'e', 'A', 'c', 'k', '(', 'B', ')']
  | .adcStart _ =>
    ['A', 'd', 'c', 'S', 't', 'a', 'r', 't', '(', 'A', 'D', 'C', '_', 'C', 'H', 'A', 'N', 'N', 'E', 'L', ')']
  | .txLine bytes => ['T', 'x', 'L', 'i', 'n', 'e', '(', '"'] ++ spellBytes bytes ++ ['"', ')']

end Sys2Proof.Machine
end

