-- ==== Sys2Proof/Machine/Asm.lean ====
section
/-! DEFINITION. The text of a trace (R87, R88): one event a line, an upper-case mnemonic with its operand in decimal,
`;` beginning a comment. -/

namespace Sys2Proof.Machine

/-- The mnemonic of a trace line (R87, R88). -/
def mnemonicText : TraceLine → List Char
  | .event .tick => ['T', 'I', 'C', 'K']
  | .event .edgeA => ['E', 'D', 'G', 'E', '_', 'A']
  | .event .edgeB => ['E', 'D', 'G', 'E', '_', 'B']
  | .event .iter => ['I', 'T', 'E', 'R']
  | .event (.adcDone _) => ['A', 'D', 'C', '_', 'D', 'O', 'N', 'E']
  | .event .txDone => ['T', 'X', '_', 'D', 'O', 'N', 'E']
  | .ticks _ => ['T', 'I', 'C', 'K', 'S']
  | .advanceTo _ => ['A', 'D', 'V', 'A', 'N', 'C', 'E', '_', 'T', 'O']
  | .step => ['S', 'T', 'E', 'P']
  | .sample _ => ['S', 'A', 'M', 'P', 'L', 'E']
  | .ack => ['A', 'C', 'K']

/-- The operand of a trace line, if it has one. -/
def operandOf : TraceLine → Option Nat
  | .event .tick => none
  | .event .edgeA => none
  | .event .edgeB => none
  | .event .iter => none
  | .event (.adcDone raw) => some raw.toNat
  | .event .txDone => none
  | .ticks n => some n
  | .advanceTo t => some t.toNat
  | .step => none
  | .sample raw => some raw.toNat
  | .ack => none

/-- The text of a trace line (R87). -/
def lineText (l : TraceLine) : List Char :=
  match operandOf l with
  | none => mnemonicText l
  | some n => mnemonicText l ++ ' ' :: Nat.toDigits 10 n

/-- Read decimal digits after the value `v`. -/
def readDigits (v : Nat) : List Char → Option Nat
  | [] => some v
  | c :: cs => if '0' ≤ c ∧ c ≤ '9' then readDigits (10 * v + (c.toNat - 48)) cs else none

/-- A decimal operand: at least one digit, and digits only. -/
def readNumber : List Char → Option Nat
  | [] => none
  | c :: cs => readDigits 0 (c :: cs)

/-- A raw operand is in 0 to 2^RAW_W - 1 (R87). -/
def readRaw (cs : List Char) : Option Raw :=
  match readNumber cs with
  | some n => if n < 2 ^ 16 then some (BitVec.ofNat 16 n) else none
  | none => none

/-- The lines without an operand. -/
def plainLines : List TraceLine :=
  [.event .tick, .event .edgeA, .event .edgeB, .event .iter, .event .txDone, .step, .ack]

/-- Read a line from its words (R87, R88). -/
def readWords : List (List Char) → Option TraceLine
  | [m] => plainLines.find? (fun l => mnemonicText l == m)
  | [m, n] =>
    if m = mnemonicText (.event (.adcDone 0)) then (readRaw n).map (fun raw => .event (.adcDone raw))
    else if m = mnemonicText (.sample 0) then (readRaw n).map .sample
    else if m = mnemonicText (.ticks 0) then (readNumber n).map .ticks
    else if m = mnemonicText (.advanceTo 0) then
      (readNumber n).map (fun t => .advanceTo (BitVec.ofNat 32 t))
    else none
  | _ => none

/-- Words are separated by spaces or tabs. -/
def isBlank (c : Char) : Bool := c == ' ' || c == '\t'

/-- The words of a line, its comment left out (R87). -/
def lineWords (cs : List Char) : List (List Char) :=
  ((cs.takeWhile (· != ';')).splitOnP isBlank).filter (!·.isEmpty)

/-- Read one line of a trace (R87). -/
def readLine (cs : List Char) : Option TraceLine := readWords (lineWords cs)

/-- Read a trace: one line each; a line of blanks and comment alone is no event. -/
def readTrace : List (List Char) → Option (List TraceLine)
  | [] => some []
  | cs :: rest =>
    if lineWords cs = [] then readTrace rest
    else match readLine cs, readTrace rest with
      | some l, some ls => some (l :: ls)
      | _, _ => none

end Sys2Proof.Machine
end

