-- ==== Sys2Proof/Machine/Parametric.lean ====
section
/-! DEFINITION. The transitions and the step with every parameter an argument, as 00_scope.md §3 and R44 ask ("The
model takes every parameter below as an argument", D17): the constants in `P`, CLOCK_W and RAW_W with the state.
`exec` and `step` are these at `hardware`, 32 and 16 (Laws/Ops.lean). -/

namespace Sys2Proof.Machine

variable {clockW rawW : Nat}

/-- The transition of an input event at given parameter values (R84, D17). -/
def execWith (P : Config.Params) (i : Instr rawW) (s : State clockW rawW) :
    Host.Outcome (State clockW rawW) Fault Refusal :=
  match i with
  | .tick => .next (tick s)
  | .edgeA => .next (edge P .btnA s)
  | .edgeB => .next (edge P .btnB s)
  | .iter => iterWith P s
  | .adcDone raw => adcDoneWith P raw s
  | .txDone => txDoneWith P s

/-- The step relation at given parameter values (R6 to R12, R44, D17). -/
def stepWith (P : Config.Params) (s : State clockW rawW) : Host.Outcome (State clockW rawW) Fault Refusal :=
  stepBy (execWith P) s

end Sys2Proof.Machine
end

