-- ==== Sys2Proof/Safety.lean ====
section
/-! DEFINITION. What claims about a run are said in: the two contexts (R18), launch premises and ends of a run
(R262, R263), the host's duties (R220), and the invariants of the state (R39, R40, R101, R137, R171). -/

namespace Sys2Proof.Machine

variable {clockW rawW : Nat}

/-- The two execution contexts (R18). -/
inductive Context where
  | interrupt
  | mainLoop
  deriving DecidableEq, Repr

/-- The context that runs an event (R18, R211). -/
def contextOf : Instr → Context
  | .tick => .interrupt
  | .edgeA => .interrupt
  | .edgeB => .interrupt
  | .iter => .mainLoop
  | .adcDone _ => .mainLoop
  | .txDone => .mainLoop

/-- The launch premise ResetState: every register at its reset value, the trace empty (R262), `rst` released (log
entry 21). What the host offers is its own. -/
abbrev ResetState (s : State clockW rawW) : Prop := { s with inputs := [] } = State.resetAt clockW rawW

/-- One value that a launch premise lists: a register and what it holds (R262; the registers of R241). -/
inductive RegValue (clockW : Nat := 32) (rawW : Nat := 16) where
  | clock (t : TimeStamp clockW)
  | lastRecordedTime (b : Button) (t : TimeStamp clockW)
  | pressTime (b : Button) (t : TimeStamp clockW)
  | pressed (b : Button) (v : Bool)
  | pendingClickTime (b : Button) (t : TimeStamp clockW)
  | edgeSeen (b : Button) (v : Bool)
  | edgeTime (b : Button) (t : TimeStamp clockW)
  | now (t : TimeStamp clockW)
  | lastSampleTime (t : TimeStamp clockW)
  | lastSentValue (v : Raw rawW)
  | lastSentValid (v : Bool)
  | stage (v : Stage)
  | txBusy (v : Bool)
  deriving DecidableEq, Repr

/-- The state with one listed value in its register. -/
def withRegValue (s : State clockW rawW) : RegValue clockW rawW → State clockW rawW
  | .clock t => { s with clock := t }
  | .lastRecordedTime b t => setBtn b { btn s b with lastRecordedTime := t } s
  | .pressTime b t => setBtn b { btn s b with pressTime := t } s
  | .pressed b v => setBtn b { btn s b with pressed := v } s
  | .pendingClickTime b t => setBtn b { btn s b with pendingClickTime := t } s
  | .edgeSeen b v => setBtn b { btn s b with edgeSeen := v } s
  | .edgeTime b t => setBtn b { btn s b with edgeTime := t } s
  | .now t => { s with now := t }
  | .lastSampleTime t => { s with lastSampleTime := t }
  | .lastSentValue v => { s with lastSentValue := v }
  | .lastSentValid v => { s with lastSentValid := v }
  | .stage v => { s with stage := v }
  | .txBusy v => { s with txBusy := v }

/-- The state given by the values `v`: "Every register not listed has its reset value" (R262). -/
def listedState (v : List (RegValue clockW rawW)) : State clockW rawW :=
  v.foldl withRegValue (State.resetAt clockW rawW)

/-- A run of accepted events (R262): it takes one state to another with no event held and none refused. -/
inductive Run (P : Config.Params) : State clockW rawW → State clockW rawW → Prop where
  | refl (s : State clockW rawW) : Run P s s
  | event {s t u : State clockW rawW} (i : Instr rawW) (ha : offerAccepted s i = true)
      (he : execWith P i s = .next t) (hr : Run P t u) : Run P s u

/-- The registers of `s` are those that some run from `ResetState` leaves (R262). Its trace is not looked at: "Only
events after the launch are observed". -/
def ReachedFromReset (P : Config.Params) (s : State clockW rawW) : Prop :=
  ∃ r u, ResetState r ∧ Run P r u ∧ { u with trace := s.trace, inputs := s.inputs } = s

/-- What CleanEntry(v) asks of the state itself (R262): the registers have the values listed, and the loop is idle, no
edge is half consumed, R39 holds, no request is outstanding as the block sees it (`adc_busy`, `tx_pending`, R35; log
entry 21), the trace is empty, and `rst` is released. -/
abbrev CleanValues (v : List (RegValue clockW rawW)) (s : State clockW rawW) : Prop :=
  { s with inputs := [] } = listedState v ∧
    s.stage = .idle ∧ s.txBusy = false ∧ s.btnA.edgeSeen = false ∧ s.btnB.edgeSeen = false ∧
    s.btnA.pressTime = s.btnA.lastRecordedTime ∧ s.btnB.pressTime = s.btnB.lastRecordedTime ∧
    adcBusy s = false ∧ txPending s = false ∧ s.trace = [] ∧ s.rst = false

/-- The launch premise CleanEntry(v) (R262): a state of these values that an earlier run, in which no event was
refused, reached from ResetState. -/
def CleanEntry (P : Config.Params) (v : List (RegValue clockW rawW)) (s : State clockW rawW) : Prop :=
  CleanValues v s ∧ ReachedFromReset P s

/-- A run is quiescent when `loop_idle` (R263). It may still owe a line. -/
abbrev Quiescent (s : State clockW rawW) : Prop := loopIdle s = true

/-- A quiescent run is settled when no click is unconsumed or pending (R263). -/
abbrev Settled (s : State clockW rawW) : Prop :=
  Quiescent s ∧ s.btnA.pressed = false ∧ s.btnB.pressed = false ∧
    s.btnA.pendingClickTime = 0 ∧ s.btnB.pendingClickTime = 0

/-- The host keeps its duties in offering this word now: it spells an event, and a completion answers a request
(R220, R85). DESIGN CHOICE (log entry 22): that a completion was asked for is read from the block as it is now, from
`adc_busy` and `tx_busy`, so a late completion of a request that a reset abandoned counts as a breach (R242 and U17
leave the collaborator's behaviour after a reset to the host). -/
abbrev HostDuty (s : State clockW rawW) (w : EventWord) : Prop :=
  match decodeAt rawW w with
  | .event .tick => True
  | .event .edgeA => True
  | .event .edgeB => True
  | .event .iter => True
  | .event (.adcDone _) => adcBusy s = true
  | .event .txDone => s.txBusy = true
  | .reserved _ => False

/-- R39: a button's press time is the time of its last accepted edge. -/
abbrev PressIsGate (s : State clockW rawW) : Prop :=
  s.btnA.pressTime = s.btnA.lastRecordedTime ∧ s.btnB.pressTime = s.btnB.lastRecordedTime

/-- R40: the states of the loop between transitions. -/
abbrev LoopAtRest (s : State clockW rawW) : Prop :=
  match s.stage with
  | .idle => True
  | .analog => False
  | .adcWait => s.txBusy = false
  | .clsAEdge => s.txBusy = true
  | .clsATo => s.txBusy = true
  | .clsBEdge => s.txBusy = true
  | .clsBTo => s.txBusy = true
  | .unused => False

/-- How many TICKs have been taken since the last reset, read from the trace (R43, R100). -/
def tickCount : List OutEvent → Nat
  | [] => 0
  | .tickAck :: os => tickCount os + 1
  | .edgeAck _ :: os => tickCount os
  | .adcStart _ :: os => tickCount os
  | .txLine _ :: os => tickCount os

/-- R101: from reset, Clock is the number of TICKs, modulo 2^CLOCK_W. -/
abbrev ClockCountsTicks (s : State clockW rawW) : Prop :=
  s.clock = BitVec.ofNat clockW (tickCount s.trace)

/-- R137, for one button: its time stamps are not ahead of the readings of Clock that came after them. -/
abbrev StampsBehind (s : State clockW rawW) (r : ButtonRegs clockW) : Prop :=
  r.pressTime ≤ s.clock ∧ r.edgeTime ≤ s.now ∧ r.pendingClickTime ≤ s.now

/-- R137 while Clock has not wrapped since reset: no time stamp is ahead of `now`, nor `now` of Clock. -/
abbrev StampsInOrder (s : State clockW rawW) : Prop :=
  tickCount s.trace < 2 ^ clockW →
    s.now ≤ s.clock ∧ s.lastSampleTime ≤ s.now ∧ StampsBehind s s.btnA ∧ StampsBehind s s.btnB

/-- A line of the grammar of R171, for values of RAW_W bits. -/
inductive GrammarLine (rawW : Nat) : List Byte → Prop where
  | value (v : Raw rawW) : GrammarLine rawW (valueLine v)
  | double (x : Button) : GrammarLine rawW (doubleLine x)
  | timeout (x : Button) : GrammarLine rawW (timeoutLine x)

/-- R171: every line sent since reset is one of the grammar. -/
def LinesInGrammar (s : State clockW rawW) : Prop :=
  ∀ bytes, .txLine bytes ∈ s.trace → GrammarLine rawW bytes

/-- How many lines have been sent since reset. -/
def lineCount : List OutEvent → Nat
  | [] => 0
  | .txLine _ :: os => lineCount os + 1
  | .tickAck :: os => lineCount os
  | .edgeAck _ :: os => lineCount os
  | .adcStart _ :: os => lineCount os

/-- How many lines the present iteration can still send (R193): one for the value, and one for each classifier
that has not sent its own. -/
def linesLeft (s : State clockW rawW) : Nat :=
  match s.stage with
  | .idle => 0
  | .analog => 3
  | .adcWait => 3
  | .clsAEdge => 2
  | .clsATo => if s.btnA.pendingClickTime = 0 then 1 else 2
  | .clsBEdge => 1
  | .clsBTo => if s.btnB.pendingClickTime = 0 then 0 else 1
  | .unused => 0

/-- No click is unconsumed, seen or pending: what holds from a settled state until the next accepted edge (R263). -/
abbrev NoClick (s : State clockW rawW) : Prop :=
  s.btnA.pressed = false ∧ s.btnB.pressed = false ∧
    s.btnA.pendingClickTime = 0 ∧ s.btnB.pendingClickTime = 0 ∧
    (s.stage = .idle ∨ (s.btnA.edgeSeen = false ∧ s.btnB.edgeSeen = false))

end Sys2Proof.Machine
end

