-- ==== Sys2Proof/Certificates/Slice0/Obligations.lean ====
section
/-! DEFINITION. The statements for the provers. Each docstring names the rules of spec/ it formalises. -/

open Sys2Proof Sys2Proof.Machine

/-! ## Encoding -/

/-- The opcode map's words (R84; the words of 95_test_vectors.md L2.1). -/
def Obligations.OpcodeMapWords : Prop :=
  decode 0x00000001#32 = .event .tick ∧ decode 0x00000002#32 = .event .edgeA ∧
  decode 0x00000003#32 = .event .edgeB ∧ decode 0x00000004#32 = .event .iter ∧
  decode 0x03E80005#32 = .event (.adcDone 1000) ∧ decode 0xFFFF0005#32 = .event (.adcDone 65535) ∧
  decode 0x00000006#32 = .event .txDone ∧ decode 0x00000000#32 = .reserved .opcode ∧
  decode 0x00000007#32 = .reserved .opcode ∧ decode 0x00000015#32 = .reserved .rsvBits ∧
  decode 0x00010006#32 = .reserved .payload

/-- Decoding an event's word gives the event back, at every operand (R80, R82, R84). -/
def Obligations.DecodeOfEncode : Prop := ∀ i : Instr, decode (encode i) = .event i

/-- A word that decodes to an event is that event's word: no two words spell one event (R80, R83, R84). -/
def Obligations.EncodeOfDecode : Prop :=
  ∀ (w : EventWord) (i : Instr), decode w = .event i → encode i = w

/-- A word spells an event exactly when its op is 1 to 6, its reserved field is zero, and its payload is zero unless
the op is 5 (R83, R84). -/
def Obligations.WordsThatSpellEvents : Prop :=
  ∀ w : EventWord, (∃ i, decode w = .event i) ↔
    (1 ≤ w.toNat % 16 ∧ w.toNat % 16 ≤ 6 ∧ w.toNat / 16 % 4096 = 0 ∧
      (w.toNat % 16 ≠ 5 → w.toNat / 65536 = 0))

/-- A word with `w[15:4] ≠ 0`, or a payload on an op other than ADC_DONE, is reserved, and the step that takes it
refuses it exactly as it refuses a reserved opcode (R83, R84, R85). That it is refused in the step that finds it first
among its inputs is the model's choice, log entries 1 and 12. -/
def Obligations.ReservedWordsRefused : Prop :=
  ∀ (s : State) (w : EventWord) (rest : List HostInput),
    s.rst = false → s.stage ≠ .unused → s.inputs = .offer w :: rest →
    (w.extractLsb' 4 12 ≠ 0 ∨ (w.extractLsb' 0 4 ≠ 5 ∧ w.extractLsb' 16 16 ≠ 0) ∨
      w.extractLsb' 0 4 = 0 ∨ 7 ≤ (w.extractLsb' 0 4).toNat) →
    ∃ why, decode w = .reserved why ∧ step s = .refused (.reservedWord w why)

/-- The stages' 3-bit encoding (R33), both ways, and no event leads to the unused value. -/
def Obligations.StageEncoding : Prop :=
  (∀ v : Stage, stageOfCode (stageCode v) = v) ∧ (∀ c : BitVec 3, stageCode (stageOfCode c) = c) ∧
  (stageCode .idle = 0 ∧ stageCode .analog = 1 ∧ stageCode .adcWait = 2 ∧ stageCode .clsAEdge = 3 ∧
    stageCode .clsATo = 4 ∧ stageCode .clsBEdge = 5 ∧ stageCode .clsBTo = 6 ∧ stageCode .unused = 7) ∧
  (∀ (i : Instr) (s t : State), s.stage ≠ .unused → exec i s = .next t → t.stage ≠ .unused)

/-- The text of a trace line reads back as the line, at every operand (R87, R88). -/
def Obligations.TraceTextReadsBack : Prop := ∀ l : TraceLine, readLine (lineText l) = some l

/-! ## Step, inputs and reset -/

/-- A step takes the first input that may be taken and runs the event it decodes to, with the inputs passed over left
as they are (R3, R18, R86). That the offers stand in a list is the model's choice, log entry 1. -/
def Obligations.StepRunsDecodedEvent : Prop :=
  ∀ (s : State) (held post : List HostInput) (w : EventWord) (i : Instr),
    s.rst = false → s.stage ≠ .unused → s.inputs = held ++ .offer w :: post →
    (∀ x ∈ held, inputAccepted s x = false) → decode w = .event i → accepts s i = true →
    step s = exec i { s with inputs := held ++ post }

/-- With nothing that may be taken, a step changes nothing: the model's choice, log entry 2. -/
def Obligations.StepRestsWithoutAcceptableInput : Prop :=
  ∀ s : State, s.stage ≠ .unused → (∀ x ∈ s.inputs, inputAccepted s x = false) → step s = .next s

/-- The fetch word is what the next step runs, when its event is accepted; a held one leaves the state (R86; log
entries 2 and 4). -/
def Obligations.FetchWordRuns : Prop :=
  ∀ (s : State) (i : Instr), s.stage ≠ .unused →
    (accepts s i = true →
      step (s.withFetchWord 32 (encode i).toNat) = exec i { s with rst := false, inputs := [] }) ∧
    (accepts s i = false →
      step (s.withFetchWord 32 (encode i).toNat) = .next (s.withFetchWord 32 (encode i).toNat))

/-- Acceptance (R86): every event but ITER is always taken, ITER when the loop is idle; an event that is not
accepted changes nothing and stays offered; ADC_DONE has an effect only in ADC_WAIT and TX_DONE only while a line is
outstanding; and a held ITER delays no TICK and no edge. The list of offers is the model's choice, log entries 1
and 2. -/
def Obligations.AcceptanceConditions : Prop :=
  (∀ (s : State) (i : Instr), accepts s i = true ↔ (i = .iter → s.stage = .idle ∧ s.txBusy = false)) ∧
  (∀ (s : State) (i : Instr), accepts s i = false → exec i s = .next s) ∧
  (∀ s : State, s.stage ≠ .unused → s.inputs = [.offer (encode .iter)] → accepts s .iter = false →
    step s = .next s) ∧
  (∀ (s : State) (raw : Raw), s.stage ≠ .adcWait → exec (.adcDone raw) s = .next s) ∧
  (∀ s : State, s.txBusy = false → exec .txDone s = .next s) ∧
  (∀ (s : State) (i : Instr) (rest : List HostInput), s.rst = false → s.stage ≠ .unused →
    accepts s .iter = false → i = .tick ∨ i = .edgeA ∨ i = .edgeB →
    s.inputs = .offer (encode .iter) :: .offer (encode i) :: rest →
    step s = exec i { s with inputs := .offer (encode .iter) :: rest })

/-- A state whose `stage` is 7 is refused, whatever is offered, unless the reset input resets it, and so is a RunLoop
that meets it (R33, R191, R223, R240; log entry 5). A release of `rst` where it was not asserted resets nothing. -/
def Obligations.UnusedStageRefused : Prop :=
  (∀ s : State, s.stage = .unused → (∀ level, .rst level ∈ s.inputs → level = false ∧ s.rst = false) →
    step s = .refused .unusedStage) ∧
  (∀ s : State, s.stage = .unused → s.txBusy = true → exec .txDone s = .refused .unusedStage)

/-- The reset table (R241), the empty trace (R240), and, the model's choice (log entries 3 and 4), the reset line
released and nothing offered. -/
def Obligations.ResetValues : Prop :=
  State.reset.clock = 0 ∧
  State.reset.btnA.lastRecordedTime = 0 ∧ State.reset.btnB.lastRecordedTime = 0 ∧
  State.reset.btnA.pressTime = 0 ∧ State.reset.btnB.pressTime = 0 ∧
  State.reset.btnA.pressed = false ∧ State.reset.btnB.pressed = false ∧
  State.reset.btnA.pendingClickTime = 0 ∧ State.reset.btnB.pendingClickTime = 0 ∧
  State.reset.lastSampleTime = 0 ∧ State.reset.lastSentValue = 0 ∧ State.reset.lastSentValid = false ∧
  State.reset.btnA.edgeSeen = false ∧ State.reset.btnB.edgeSeen = false ∧
  State.reset.btnA.edgeTime = 0 ∧ State.reset.btnB.edgeTime = 0 ∧
  State.reset.now = 0 ∧ State.reset.stage = .idle ∧ State.reset.txBusy = false ∧ State.reset.trace = [] ∧
  State.reset.rst = false ∧ State.reset.inputs = []

/-- The reset input (R240; that it is driven as an input and keeps its level, log entry 3): asserting it writes every register, empties the trace and emits nothing; while it is
asserted no event is accepted; releasing it leaves the reset state. -/
def Obligations.ResetInput : Prop :=
  (∀ (s : State) (rest : List HostInput), s.inputs = .rst true :: rest →
    step s = .next { State.reset with rst := true, inputs := rest }) ∧
  (∀ s : State, s.rst = true → s.stage ≠ .unused → (∀ x ∈ s.inputs, ∃ w, x = .offer w) →
    step s = .next s) ∧
  (∀ (s : State) (rest : List HostInput), s.rst = true → s.inputs = .rst false :: rest →
    step s = .next { State.reset with inputs := rest })

/-- A reset in the ADC wait or a TX wait abandons it: the loop is idle, and an ADC_DONE or TX_DONE that arrives
afterwards is ignored (R242). -/
def Obligations.ResetAbandonsWaits : Prop :=
  ∀ (s : State) (raw : Raw), s.stage = .adcWait ∨ s.txBusy = true →
    (applyReset s).stage = .idle ∧ (applyReset s).txBusy = false ∧
    exec (.adcDone raw) (applyReset s) = .next (applyReset s) ∧
    exec .txDone (applyReset s) = .next (applyReset s)

/-- The hardware's order for events offered together is a rearrangement of them, sorted by the tie-break TICK,
EDGE_A, EDGE_B, ADC_DONE, TX_DONE, ITER, and keeps the order of events of one kind (R68, R214). The model's choices, log
entry 14: that it is a function beside the step, and that two ADC_DONE with different results keep their order, which
R214 and R68 leave open. -/
def Obligations.HardwareTieBreak : Prop :=
  (∀ raw : Raw, tieBreakRank .tick < tieBreakRank .edgeA ∧ tieBreakRank .edgeA < tieBreakRank .edgeB ∧
    tieBreakRank .edgeB < tieBreakRank (.adcDone raw) ∧ tieBreakRank (.adcDone raw) < tieBreakRank .txDone ∧
    tieBreakRank .txDone < tieBreakRank .iter) ∧
  (∀ raw raw' : Raw, tieBreakRank (.adcDone raw) = tieBreakRank (.adcDone raw')) ∧
  ∀ is : List Instr, (hardwareOrder is).Perm is ∧
    (hardwareOrder is).Pairwise (fun i j => tieBreakRank i ≤ tieBreakRank j) ∧
    ∀ r : Nat, (hardwareOrder is).filter (fun i => tieBreakRank i == r) =
      is.filter (fun i => tieBreakRank i == r)

/-! ## The six events -/

/-- TICK (R100): accepted in every state, it appends TickAck and adds 1 to Clock modulo 2^CLOCK_W; nothing else
changes. -/
def Obligations.TickCountsOne : Prop :=
  encode .tick = 0x00000001#32 ∧
  ∀ s : State, accepts s .tick = true ∧
    exec .tick s = .next { s with clock := s.clock + 1, trace := s.trace ++ [.tickAck] } ∧
    (s.clock + 1).toNat = (s.clock.toNat + 1) % 2 ^ 32

/-- EDGE_A and EDGE_B (R110, R111, R112): accepted in every state; acknowledged always; recorded exactly when more
than 50 ms have passed since the button's last accepted edge; nothing else changes. -/
def Obligations.EdgeDebounced : Prop :=
  encode .edgeA = 0x00000002#32 ∧ encode .edgeB = 0x00000003#32 ∧
  ∀ s : State, accepts s .edgeA = true ∧ accepts s .edgeB = true ∧
    exec .edgeA s = .next
      (if 50 < (s.clock - s.btnA.lastRecordedTime).toNat then
        { s with
          btnA := { s.btnA with lastRecordedTime := s.clock, pressTime := s.clock, pressed := true }
          trace := s.trace ++ [.edgeAck .btnA] }
      else { s with trace := s.trace ++ [.edgeAck .btnA] }) ∧
    exec .edgeB s = .next
      (if 50 < (s.clock - s.btnB.lastRecordedTime).toNat then
        { s with
          btnB := { s.btnB with lastRecordedTime := s.clock, pressTime := s.clock, pressed := true }
          trace := s.trace ++ [.edgeAck .btnB] }
      else { s with trace := s.trace ++ [.edgeAck .btnB] })

/-- The debounce guarantee (R115): whatever event runs, a button's gate is unchanged, or the event is an edge of that
button, accepted more than 50 ms after the last accepted one. -/
def Obligations.AcceptedEdgesFarApart : Prop :=
  ∀ (i : Instr) (s t : State), exec i s = .next t →
    (t.btnA.lastRecordedTime = s.btnA.lastRecordedTime ∨
      (i = .edgeA ∧ t.btnA.lastRecordedTime = s.clock ∧
        50 < (t.btnA.lastRecordedTime - s.btnA.lastRecordedTime).toNat)) ∧
    (t.btnB.lastRecordedTime = s.btnB.lastRecordedTime ∨
      (i = .edgeB ∧ t.btnB.lastRecordedTime = s.clock ∧
        50 < (t.btnB.lastRecordedTime - s.btnB.lastRecordedTime).toNat))

/-- The startup window (R256): with the gate at 0, every edge at Clock at most 50 is discarded. -/
def Obligations.StartupEdgesDiscarded : Prop :=
  ∀ s : State, s.clock.toNat ≤ 50 →
    (s.btnA.lastRecordedTime = 0 →
      exec .edgeA s = .next { s with trace := s.trace ++ [.edgeAck .btnA] }) ∧
    (s.btnB.lastRecordedTime = 0 →
      exec .edgeB s = .next { s with trace := s.trace ++ [.edgeAck .btnB] })

/-- ITER while the loop is busy is held (R194): no change, and the offer is still there (log entry 2). -/
def Obligations.IterHeldWhileBusy : Prop :=
  ∀ s : State, s.stage ≠ .idle ∨ s.txBusy = true →
    exec .iter s = .next s ∧
    (s.stage ≠ .unused → s.inputs = [.offer (encode .iter)] → step s = .next s)

/-- ITER in an idle loop takes the snapshot (R190). With a sample due (R150) a conversion is started on ADC_CHANNEL, and
the loop waits for it; nothing else changes. With none due, RunLoop goes on with classifier A (R191, R192). -/
def Obligations.IterStartsConversion : Prop :=
  ∀ s : State, s.stage = .idle → s.txBusy = false →
    (100 ≤ (s.clock - s.lastSampleTime).toNat → exec .iter s = .next { s with
      now := s.clock
      btnA := if s.btnA.pressed then
          { s.btnA with edgeSeen := true, edgeTime := s.btnA.pressTime, pressed := false }
        else { s.btnA with edgeSeen := false }
      btnB := if s.btnB.pressed then
          { s.btnB with edgeSeen := true, edgeTime := s.btnB.pressTime, pressed := false }
        else { s.btnB with edgeSeen := false }
      lastSampleTime := s.clock
      stage := .adcWait
      trace := s.trace ++ [.adcStart Config.adcChannel] }) ∧
    ((s.clock - s.lastSampleTime).toNat < 100 → exec .iter s = runLoop hardware { s with
      now := s.clock
      btnA := if s.btnA.pressed then
          { s.btnA with edgeSeen := true, edgeTime := s.btnA.pressTime, pressed := false }
        else { s.btnA with edgeSeen := false }
      btnB := if s.btnB.pressed then
          { s.btnB with edgeSeen := true, edgeTime := s.btnB.pressTime, pressed := false }
        else { s.btnB with edgeSeen := false }
      stage := .clsAEdge })

/-- An iteration with no sample due, no edge to consume and no click timed out sends nothing, and ends (R136, R150,
R190 to R193). -/
def Obligations.QuietIterationSendsNothing : Prop :=
  ∀ s : State, s.stage = .idle → s.txBusy = false → (s.clock - s.lastSampleTime).toNat < 100 →
    s.btnA.pressed = false → s.btnB.pressed = false →
    (s.btnA.pendingClickTime = 0 ∨ (s.clock - s.btnA.pendingClickTime).toNat ≤ 500) →
    (s.btnB.pendingClickTime = 0 ∨ (s.clock - s.btnB.pendingClickTime).toNat ≤ 500) →
    exec .iter s = .next { s with
      now := s.clock
      btnA := { s.btnA with edgeSeen := false }
      btnB := { s.btnB with edgeSeen := false } }

/-- A double-click (R130, R131): with no sample due, an edge less than 500 ms after the pending click sends the
button's double-click line, clears the click, and blocks the loop at the next stage. For B, classifier A first
passes without a line: no edge, and its own click, if one is pending, not timed out. -/
def Obligations.DoubleClickSendsItsLine : Prop :=
  ∀ s : State, s.stage = .idle → s.txBusy = false → (s.clock - s.lastSampleTime).toNat < 100 →
    (s.btnA.pressed = true → s.btnA.pendingClickTime ≠ 0 →
      (s.btnA.pressTime - s.btnA.pendingClickTime).toNat < 500 →
      exec .iter s = .next { s with
        now := s.clock
        btnA := { s.btnA with
          pressed := false, edgeSeen := false, edgeTime := s.btnA.pressTime, pendingClickTime := 0 }
        btnB := if s.btnB.pressed then
            { s.btnB with edgeSeen := true, edgeTime := s.btnB.pressTime, pressed := false }
          else { s.btnB with edgeSeen := false }
        stage := .clsATo
        txBusy := true
        trace := s.trace ++
          [.txLine [0x70, 0x72, 0x65, 0x76, 0x69, 0x6F, 0x75, 0x73, 0x0A, 0x0D]] }) ∧
    (s.btnA.pressed = false →
      (s.btnA.pendingClickTime = 0 ∨ (s.clock - s.btnA.pendingClickTime).toNat ≤ 500) →
      s.btnB.pressed = true → s.btnB.pendingClickTime ≠ 0 →
      (s.btnB.pressTime - s.btnB.pendingClickTime).toNat < 500 →
      exec .iter s = .next { s with
        now := s.clock
        btnA := { s.btnA with edgeSeen := false }
        btnB := { s.btnB with
          pressed := false, edgeSeen := false, edgeTime := s.btnB.pressTime, pendingClickTime := 0 }
        stage := .clsBTo
        txBusy := true
        trace := s.trace ++ [.txLine [0x6E, 0x65, 0x78, 0x74, 0x0A, 0x0D]] })

/-- A timeout (R130, R132): with no sample due and no edge, a click pending for more than 500 ms sends the button's
timeout line and is cleared. For B, classifier A first passes without a line: no edge, and its own click, if one is
pending, not timed out. -/
def Obligations.TimeoutSendsItsLine : Prop :=
  ∀ s : State, s.stage = .idle → s.txBusy = false → (s.clock - s.lastSampleTime).toNat < 100 →
    (s.btnA.pressed = false → s.btnA.pendingClickTime ≠ 0 →
      500 < (s.clock - s.btnA.pendingClickTime).toNat →
      exec .iter s = .next { s with
        now := s.clock
        btnA := { s.btnA with edgeSeen := false, pendingClickTime := 0 }
        btnB := if s.btnB.pressed then
            { s.btnB with edgeSeen := true, edgeTime := s.btnB.pressTime, pressed := false }
          else { s.btnB with edgeSeen := false }
        stage := .clsBEdge
        txBusy := true
        trace := s.trace ++ [.txLine [0x73, 0x74, 0x6F, 0x70, 0x0A, 0x0D]] }) ∧
    (s.btnA.pressed = false →
      (s.btnA.pendingClickTime = 0 ∨ (s.clock - s.btnA.pendingClickTime).toNat ≤ 500) →
      s.btnB.pressed = false → s.btnB.pendingClickTime ≠ 0 →
      500 < (s.clock - s.btnB.pendingClickTime).toNat →
      exec .iter s = .next { s with
        now := s.clock
        btnA := { s.btnA with edgeSeen := false }
        btnB := { s.btnB with edgeSeen := false, pendingClickTime := 0 }
        txBusy := true
        trace := s.trace ++
          [.txLine [0x70, 0x6C, 0x61, 0x79, 0x5F, 0x70, 0x61, 0x75, 0x73, 0x65, 0x0A, 0x0D]] })

/-- An edge with no click pending, or exactly 500 ms or more after it, starts or restarts the window and sends nothing
(R131, R134), if it is not itself older than 500 ms, and the other button has no edge and no click timed out. At time
stamp 0 the click is lost, since 0 means Idle (R135). -/
def Obligations.EdgeStartsOrRestartsWindow : Prop :=
  ∀ s : State, s.stage = .idle → s.txBusy = false → (s.clock - s.lastSampleTime).toNat < 100 →
    (s.btnA.pressed = true →
      (s.btnA.pendingClickTime = 0 ∨ 500 ≤ (s.btnA.pressTime - s.btnA.pendingClickTime).toNat) →
      (s.btnA.pressTime = 0 ∨ (s.clock - s.btnA.pressTime).toNat ≤ 500) →
      s.btnB.pressed = false → (s.btnB.pendingClickTime = 0 ∨ (s.clock - s.btnB.pendingClickTime).toNat ≤ 500) →
      exec .iter s = .next { s with
        now := s.clock
        btnA := { s.btnA with
          pressed := false, edgeSeen := false, edgeTime := s.btnA.pressTime
          pendingClickTime := s.btnA.pressTime }
        btnB := { s.btnB with edgeSeen := false } }) ∧
    (s.btnB.pressed = true →
      (s.btnB.pendingClickTime = 0 ∨ 500 ≤ (s.btnB.pressTime - s.btnB.pendingClickTime).toNat) →
      (s.btnB.pressTime = 0 ∨ (s.clock - s.btnB.pressTime).toNat ≤ 500) →
      s.btnA.pressed = false → (s.btnA.pendingClickTime = 0 ∨ (s.clock - s.btnA.pendingClickTime).toNat ≤ 500) →
      exec .iter s = .next { s with
        now := s.clock
        btnA := { s.btnA with edgeSeen := false }
        btnB := { s.btnB with
          pressed := false, edgeSeen := false, edgeTime := s.btnB.pressTime
          pendingClickTime := s.btnB.pressTime } })

/-- A click consumed more than 500 ms late times out in the iteration that consumes it (R132, corner case), for
either button; for B with A quiet, and the iteration then ends but for the line (R193). -/
def Obligations.LateClickTimesOutAtOnce : Prop :=
  ∀ s : State, s.stage = .idle → s.txBusy = false → (s.clock - s.lastSampleTime).toNat < 100 →
    (s.btnA.pressed = true →
      (s.btnA.pendingClickTime = 0 ∨ 500 ≤ (s.btnA.pressTime - s.btnA.pendingClickTime).toNat) →
      s.btnA.pressTime ≠ 0 → 500 < (s.clock - s.btnA.pressTime).toNat →
      ∃ t, exec .iter s = .next t ∧ t.btnA.pendingClickTime = 0 ∧ t.stage = .clsBEdge ∧ t.txBusy = true ∧
        t.trace = s.trace ++ [.txLine (timeoutLine .btnA)]) ∧
    (s.btnA.pressed = false →
      (s.btnA.pendingClickTime = 0 ∨ (s.clock - s.btnA.pendingClickTime).toNat ≤ 500) →
      s.btnB.pressed = true →
      (s.btnB.pendingClickTime = 0 ∨ 500 ≤ (s.btnB.pressTime - s.btnB.pendingClickTime).toNat) →
      s.btnB.pressTime ≠ 0 → 500 < (s.clock - s.btnB.pressTime).toNat →
      ∃ t, exec .iter s = .next t ∧ t.btnB.pendingClickTime = 0 ∧ t.stage = .idle ∧ t.txBusy = true ∧
        t.trace = s.trace ++ [.txLine (timeoutLine .btnB)])

/-- CLS_b_EDGE and CLS_b_TO of either button, in every state (R130 to R132): what they are however the loop comes to
them, from ITER, ADC_DONE or TX_DONE, and whatever the other button holds. -/
def Obligations.ClassifierActions : Prop :=
  ∀ (s : State) (x : Button),
    ((btn s x).edgeSeen = false →
      clsEdge hardware x s = { s with stage := if x = .btnA then .clsATo else .clsBTo }) ∧
    ((btn s x).edgeSeen = true → (btn s x).pendingClickTime ≠ 0 →
      ((btn s x).edgeTime - (btn s x).pendingClickTime).toNat < 500 →
      clsEdge hardware x s =
        { setBtn x { btn s x with edgeSeen := false, pendingClickTime := 0 } s with
          stage := if x = .btnA then .clsATo else .clsBTo
          txBusy := true
          trace := s.trace ++ [.txLine (if x = .btnA then
              [0x70, 0x72, 0x65, 0x76, 0x69, 0x6F, 0x75, 0x73, 0x0A, 0x0D]
            else [0x6E, 0x65, 0x78, 0x74, 0x0A, 0x0D])] }) ∧
    ((btn s x).edgeSeen = true →
      ((btn s x).pendingClickTime = 0 ∨
        500 ≤ ((btn s x).edgeTime - (btn s x).pendingClickTime).toNat) →
      clsEdge hardware x s =
        { setBtn x { btn s x with edgeSeen := false, pendingClickTime := (btn s x).edgeTime } s with
          stage := if x = .btnA then .clsATo else .clsBTo }) ∧
    ((btn s x).pendingClickTime ≠ 0 → 500 < (s.now - (btn s x).pendingClickTime).toNat →
      clsTo hardware x s =
        { setBtn x { btn s x with pendingClickTime := 0 } s with
          stage := if x = .btnA then .clsBEdge else .idle
          txBusy := true
          trace := s.trace ++ [.txLine (if x = .btnA then [0x73, 0x74, 0x6F, 0x70, 0x0A, 0x0D]
            else [0x70, 0x6C, 0x61, 0x79, 0x5F, 0x70, 0x61, 0x75, 0x73, 0x65, 0x0A, 0x0D])] }) ∧
    (((btn s x).pendingClickTime = 0 ∨ (s.now - (btn s x).pendingClickTime).toNat ≤ 500) →
      clsTo hardware x s = { s with stage := if x = .btnA then .clsBEdge else .idle })

/-- The status outputs (R35), which say when ITER is accepted, and the classifier's state (R26), as functions of the
state. -/
def Obligations.StatusOutputs : Prop :=
  ∀ s : State,
    (loopIdle s = true ↔ s.stage = .idle ∧ s.txBusy = false) ∧
    (adcBusy s = true ↔ s.stage = .adcWait) ∧
    (txPending s = true ↔ s.txBusy = true) ∧
    accepts s .iter = loopIdle s ∧
    ∀ x : Button, (classifierState s x = .idle ↔ (btn s x).pendingClickTime = 0) ∧
      (classifierState s x = .pending ↔ (btn s x).pendingClickTime ≠ 0)

/-- ADC_DONE in the wait with a first or changed value (R151): it is stored, its line is sent, and the loop blocks
before classifier A. -/
def Obligations.AdcDoneTransmits : Prop :=
  ∀ (s : State) (raw : Raw), s.stage = .adcWait →
    (s.lastSentValid = false ∨ raw.toNat / 50 ≠ s.lastSentValue.toNat) →
    exec (.adcDone raw) s = .next { s with
      lastSentValue := BitVec.ofNat 16 (raw.toNat / 50)
      lastSentValid := true
      stage := .clsAEdge
      txBusy := true
      trace := s.trace ++ [.txLine (dec (BitVec.ofNat 16 (raw.toNat / 50)) ++ [0x0A, 0x0D])] }

/-- ADC_DONE in the wait with an unchanged value (R151): nothing is sent for it, and the iteration goes on at once
with classifier A; where neither classifier has anything to do, only `stage` changes. -/
def Obligations.AdcDoneSuppressesUnchanged : Prop :=
  ∀ (s : State) (raw : Raw), s.stage = .adcWait → s.lastSentValid = true →
    raw.toNat / 50 = s.lastSentValue.toNat →
    exec (.adcDone raw) s = runLoop hardware { s with stage := .clsAEdge } ∧
    (s.txBusy = false → s.btnA.edgeSeen = false → s.btnB.edgeSeen = false →
      s.btnA.pendingClickTime = 0 → s.btnB.pendingClickTime = 0 →
      exec (.adcDone raw) s = .next { s with stage := .idle })

/-- ADC_DONE outside the wait changes no state and emits nothing (R155). -/
def Obligations.AdcDoneIgnoredOutsideWait : Prop :=
  ∀ (s : State) (raw : Raw), s.stage ≠ .adcWait → exec (.adcDone raw) s = .next s

/-- The scaling law (R152). -/
def Obligations.ScalingLaw : Prop :=
  ∀ raw : Raw, (scaled hardware raw).toNat = raw.toNat / 50 ∧ (scaled hardware raw).toNat ≤ 1310 ∧
    ((scaled hardware raw).toNat ≤ 100 ↔ raw.toNat ≤ 5049)

/-- The bookkeeping behind change suppression (R153): after a delivered ADC_DONE the last sent value is the one just
delivered, whether or not it was transmitted, and no other event changes it. -/
def Obligations.LastSentIsLastDelivered : Prop :=
  (∀ (s : State) (raw : Raw), s.stage = .adcWait →
    ∃ t, exec (.adcDone raw) s = .next t ∧ t.lastSentValid = true ∧
      t.lastSentValue.toNat = raw.toNat / 50) ∧
  (∀ (i : Instr) (s t : State), (∀ raw, i = .adcDone raw → s.stage ≠ .adcWait) → exec i s = .next t →
    t.lastSentValid = s.lastSentValid ∧ t.lastSentValue = s.lastSentValue)

/-- TX_DONE (R175): ignored with no line outstanding; otherwise `tx_busy` is cleared and the loop resumes at `stage`;
after the last line of an iteration it only clears `tx_busy`. -/
def Obligations.TxDoneResumesLoop : Prop :=
  encode .txDone = 0x00000006#32 ∧
  ∀ s : State, accepts s .txDone = true ∧
    (s.txBusy = false → exec .txDone s = .next s) ∧
    (s.txBusy = true → exec .txDone s = runLoop hardware { s with txBusy := false }) ∧
    (s.txBusy = true → s.stage = .idle →
      exec .txDone s = .next { s with txBusy := false } ∧ loopIdle { s with txBusy := false } = true)

/-- TX_DONE in the middle of an iteration whose remaining stages have nothing to do ends it (R175, the example). -/
def Obligations.TxDoneEndsQuietIteration : Prop :=
  ∀ s : State, s.txBusy = true → s.stage ∈ [Stage.clsAEdge, .clsATo, .clsBEdge, .clsBTo] →
    s.btnA.edgeSeen = false → s.btnB.edgeSeen = false →
    s.btnA.pendingClickTime = 0 → s.btnB.pendingClickTime = 0 →
    exec .txDone s = .next { s with txBusy := false, stage := .idle }

/-- Every event completes in every state but one whose stage is the unused value (R210: no exceptions). -/
def Obligations.EveryEventCompletes : Prop :=
  ∀ (i : Instr) (s : State), s.stage ≠ .unused → ∃ t, exec i s = .next t

/-! ## The sequencer -/

/-- RunLoop is the while loop of R191, and it stops, blocked, after at most five actions. -/
def Obligations.RunLoopIsWhileLoop : Prop :=
  ∀ (clockW rawW : Nat) (P : Config.Params) (s : State clockW rawW),
    runLoop P s =
      (if s.txBusy = true ∨ s.stage = .idle ∨ s.stage = .adcWait then .next s
      else match s.stage with
        | .analog => runLoop P (analogCheck P s)
        | .clsAEdge => runLoop P (clsEdge P .btnA s)
        | .clsATo => runLoop P (clsTo P .btnA s)
        | .clsBEdge => runLoop P (clsEdge P .btnB s)
        | .clsBTo => runLoop P (clsTo P .btnB s)
        | .unused => .refused .unusedStage
        | .idle => .next s
        | .adcWait => .next s) ∧
    (s.stage ≠ .unused → ∃ n ≤ 5, runLoop P s = .next ((stageAction P)^[n] s) ∧
      loopBlocked ((stageAction P)^[n] s) = true)

/-- The stages' successors, and that an action blocks for a line exactly when it sends one (R192). -/
def Obligations.StageOrder : Prop :=
  ∀ (clockW rawW : Nat) (P : Config.Params) (s : State clockW rawW) (raw : Raw rawW),
    (analogCheck P s).stage =
      (if P.adcReadInterval ≤ (s.now - s.lastSampleTime).toNat then .adcWait else .clsAEdge) ∧
    (deliver P raw s).stage = .clsAEdge ∧
    (clsEdge P .btnA s).stage = .clsATo ∧ (clsTo P .btnA s).stage = .clsBEdge ∧
    (clsEdge P .btnB s).stage = .clsBTo ∧ (clsTo P .btnB s).stage = .idle ∧
    (s.txBusy = false → ∀ x : Button,
      ((clsEdge P x s).txBusy = true ↔ (clsEdge P x s).trace = s.trace ++ [.txLine (doubleLine x)]) ∧
      ((clsTo P x s).txBusy = true ↔ (clsTo P x s).trace = s.trace ++ [.txLine (timeoutLine x)]) ∧
      ((deliver P raw s).txBusy = true ↔
        (deliver P raw s).trace = s.trace ++ [.txLine (valueLine (scaled P raw))]))

/-- The components are independent (R197): a classifier's stages change nothing of the other button or the sampler,
and what they do depends only on `now`, the button's own registers, `stage`, `tx_busy` and the trace so far. -/
def Obligations.ClassifiersIndependent : Prop :=
  ∀ (clockW rawW : Nat) (P : Config.Params) (x y : Button) (s u : State clockW rawW), y ≠ x →
    (btn (clsEdge P x s) y = btn s y ∧ btn (clsTo P x s) y = btn s y) ∧
    (∀ t ∈ [clsEdge P x s, clsTo P x s], t.lastSampleTime = s.lastSampleTime ∧
      t.lastSentValue = s.lastSentValue ∧ t.lastSentValid = s.lastSentValid ∧ t.clock = s.clock ∧
      t.now = s.now) ∧
    (u.now = s.now → btn u x = btn s x → u.stage = s.stage → u.txBusy = s.txBusy → u.trace = s.trace →
      (btn (clsEdge P x u) x = btn (clsEdge P x s) x ∧ (clsEdge P x u).stage = (clsEdge P x s).stage ∧
        (clsEdge P x u).txBusy = (clsEdge P x s).txBusy ∧
        (clsEdge P x u).trace = (clsEdge P x s).trace) ∧
      (btn (clsTo P x u) x = btn (clsTo P x s) x ∧ (clsTo P x u).stage = (clsTo P x s).stage ∧
        (clsTo P x u).txBusy = (clsTo P x s).txBusy ∧ (clsTo P x u).trace = (clsTo P x s).trace))

/-- The unbounded wait (R156): in ADC_WAIT, ITER is held, TICK and the edges are accepted, and no event but ADC_DONE
leaves the wait. -/
def Obligations.OnlyAdcDoneLeavesWait : Prop :=
  ∀ s : State, s.stage = .adcWait →
    (accepts s .iter = false ∧ accepts s .tick = true ∧ accepts s .edgeA = true ∧
      accepts s .edgeB = true) ∧
    ∀ (i : Instr) (t : State), (∀ raw, i ≠ .adcDone raw) → exec i s = .next t → t.stage = .adcWait

/-- The blocking transmit (R34, R251): while a line is outstanding outside the ADC wait, no event but TX_DONE moves
the loop or ends the wait. -/
def Obligations.OnlyTxDoneEndsTransmit : Prop :=
  ∀ (i : Instr) (s t : State), s.txBusy = true → s.stage ≠ .adcWait → i ≠ .txDone → exec i s = .next t →
    t.txBusy = true ∧ t.stage = s.stage ∧ t.btnA.pendingClickTime = s.btnA.pendingClickTime ∧
      t.btnB.pendingClickTime = s.btnB.pendingClickTime ∧ t.lastSampleTime = s.lastSampleTime

/-- An iteration's lines are at most three (R193): what has been sent and can still be sent grows only when an ITER
starts an iteration, and then by three. -/
def Obligations.AtMostThreeLinesPerIteration : Prop :=
  ∀ (i : Instr) (s t : State), exec i s = .next t →
    lineCount t.trace + linesLeft t ≤
      lineCount s.trace + linesLeft s + (if i = .iter ∧ s.stage = .idle ∧ s.txBusy = false then 3 else 0)

/-! ## Lines -/

/-- The bytes of the four semantic lines (R172). The spec takes the character codes from general knowledge (log
entry 9). -/
def Obligations.SemanticLineBytes : Prop :=
  doubleLine .btnA = [0x70, 0x72, 0x65, 0x76, 0x69, 0x6F, 0x75, 0x73, 0x0A, 0x0D] ∧
  doubleLine .btnB = [0x6E, 0x65, 0x78, 0x74, 0x0A, 0x0D] ∧
  timeoutLine .btnA = [0x73, 0x74, 0x6F, 0x70, 0x0A, 0x0D] ∧
  timeoutLine .btnB = [0x70, 0x6C, 0x61, 0x79, 0x5F, 0x70, 0x61, 0x75, 0x73, 0x65, 0x0A, 0x0D] ∧
  (doubleLine .btnA).length = 10 ∧ (doubleLine .btnB).length = 6 ∧ (timeoutLine .btnA).length = 6 ∧
  (timeoutLine .btnB).length = 12

/-- The decimal line (R173): ASCII digits only, most significant first, their value the number itself, no leading
zero, and `Dec(0) = "0"`; with the rule's examples. The codes are those of log entry 9. -/
def Obligations.DecimalText : Prop :=
  (∀ v : Raw, (∀ x ∈ dec v, 0x30 ≤ x.toNat ∧ x.toNat ≤ 0x39) ∧
    (dec v).foldl (fun n x => 10 * n + (x.toNat - 0x30)) 0 = v.toNat ∧
    (v ≠ 0 → ∃ x xs, dec v = x :: xs ∧ x ≠ 0x30)) ∧
  dec (0 : Raw) = [0x30] ∧ dec (7 : Raw) = [0x37] ∧ dec (20 : Raw) = [0x32, 0x30] ∧
  dec (100 : Raw) = [0x31, 0x30, 0x30] ∧ dec (1310 : Raw) = [0x31, 0x33, 0x31, 0x30]

/-- Every step keeps: each line sent since reset is one of the five of the grammar (R171). -/
def Obligations.StepKeepsLineGrammar : Prop :=
  ∀ s t : State, LinesInGrammar s → step s = .next t → LinesInGrammar t

/-- An event appends at most one output event, and never takes one back (R43, R64): an interrupt its own
acknowledgement, the main loop one line, one conversion start, or nothing. -/
def Obligations.OneOutputPerEvent : Prop :=
  ∀ (i : Instr) (s t : State), exec i s = .next t →
    (i = .tick → t.trace = s.trace ++ [.tickAck]) ∧
    (i = .edgeA → t.trace = s.trace ++ [.edgeAck .btnA]) ∧
    (i = .edgeB → t.trace = s.trace ++ [.edgeAck .btnB]) ∧
    (contextOf i = .mainLoop → t.trace = s.trace ∨
      (t.stage = .adcWait ∧ t.trace = s.trace ++ [.adcStart Config.adcChannel]) ∨
      (∃ bytes, GrammarLine 16 bytes ∧ t.txBusy = true ∧ t.trace = s.trace ++ [.txLine bytes]))

/-! ## The two contexts -/

/-- The writer discipline (R36): only the interrupt context writes Clock, the gate and the press time, and only it
sets `pressed`; only the main loop writes every other register, and only it clears `pressed`. -/
def Obligations.WriterDiscipline : Prop :=
  ∀ (i : Instr) (s t : State), exec i s = .next t →
    (contextOf i = .mainLoop → t.clock = s.clock ∧ ∀ x : Button,
      (btn t x).lastRecordedTime = (btn s x).lastRecordedTime ∧ (btn t x).pressTime = (btn s x).pressTime ∧
      ((btn t x).pressed = true → (btn s x).pressed = true)) ∧
    (contextOf i = .interrupt → t.now = s.now ∧ t.lastSampleTime = s.lastSampleTime ∧
      t.lastSentValue = s.lastSentValue ∧ t.lastSentValid = s.lastSentValid ∧ t.stage = s.stage ∧
      t.txBusy = s.txBusy ∧ ∀ x : Button,
      (btn t x).pendingClickTime = (btn s x).pendingClickTime ∧ (btn t x).edgeSeen = (btn s x).edgeSeen ∧
      (btn t x).edgeTime = (btn s x).edgeTime ∧ ((btn s x).pressed = true → (btn t x).pressed = true))

/-- What ITER, ADC_DONE and TX_DONE leave unchanged (R21 to R34): the interrupt context's registers and the inputs;
`now`, `edge_time` and `pressed` but by ITER; `last_sample_time` but by ITER, which sets it to Clock or leaves it
(no loop rests in ANALOG, R40, where a TX_DONE would run the interval check);
the last sent value but by ADC_DONE; and by an ITER the `edge_time` of a button not pressed. -/
def Obligations.MainLoopFrame : Prop :=
  ∀ (i : Instr) (s t : State), contextOf i = .mainLoop → exec i s = .next t →
    (t.clock = s.clock ∧ t.rst = s.rst ∧ t.inputs = s.inputs ∧ ∀ x : Button,
      (btn t x).lastRecordedTime = (btn s x).lastRecordedTime ∧ (btn t x).pressTime = (btn s x).pressTime) ∧
    (i ≠ .iter → t.now = s.now ∧ (s.stage ≠ .analog → t.lastSampleTime = s.lastSampleTime) ∧ ∀ x : Button,
      (btn t x).edgeTime = (btn s x).edgeTime ∧ (btn t x).pressed = (btn s x).pressed) ∧
    (i = .iter → loopIdle s = true →
      t.now = s.clock ∧ (t.lastSampleTime = s.lastSampleTime ∨ t.lastSampleTime = s.clock) ∧
      ∀ x : Button, (btn t x).pressed = false ∧
        (btn t x).edgeTime = if (btn s x).pressed then (btn s x).pressTime else (btn s x).edgeTime) ∧
    ((∀ raw, i ≠ .adcDone raw) → t.lastSentValue = s.lastSentValue ∧ t.lastSentValid = s.lastSentValid)

/-- Interrupts may fall before or after a completion (R196): a TICK or an edge followed by ADC_DONE or TX_DONE leaves
the same registers as the other order, the same lines, and the same output events but for their order. -/
def Obligations.InterruptsCommuteWithCompletions : Prop :=
  ∀ (i j : Instr) (s s1 t1 : State), contextOf i = .interrupt → contextOf j = .mainLoop → j ≠ .iter →
    exec i s = .next s1 → exec j s1 = .next t1 →
    ∃ s2 t2, exec j s = .next s2 ∧ exec i s2 = .next t2 ∧
      { t2 with trace := [] } = { t1 with trace := [] } ∧ t2.trace.Perm t1.trace ∧
      serialBytes t2.trace = serialBytes t1.trace

/-! ## Invariants -/

/-- Right after reset the invariants hold (R39, R40, R101, R137, R171), and a ResetState differs from that state only in
what is offered (R262). In every state that has what CleanEntry asks of a state's values (R262), R39, R40 and R171 hold,
and no more is said: ClockCountsTicks (R101) counts in a trace that CleanEntry empties, and both it and StampsInOrder
(R137) fail at the start that program P4 lists. The model's readings, log entry 21 (DEDUCED): CleanValues
as the part of CleanEntry that a state's values show, and that `rst` is released in a ResetState and in CleanValues. -/
def Obligations.InvariantsAtReset : Prop :=
  PressIsGate State.reset ∧ LoopAtRest State.reset ∧ ClockCountsTicks State.reset ∧
    StampsInOrder State.reset ∧ LinesInGrammar State.reset ∧ NoClick State.reset ∧
  (∀ s : State, ResetState s ↔ ∃ offers, s = { State.reset with inputs := offers }) ∧
  ∀ (v : List RegValue) (s : State), CleanValues v s → PressIsGate s ∧ LoopAtRest s ∧ LinesInGrammar s

/-- Every step keeps R39: a button's press time is its gate's time. -/
def Obligations.StepKeepsPressIsGate : Prop :=
  ∀ s t : State, PressIsGate s → step s = .next t → PressIsGate t

/-- Every step keeps R40: between transitions the loop is idle, or waits for a conversion, or for a line. -/
def Obligations.StepKeepsLoopAtRest : Prop :=
  ∀ s t : State, LoopAtRest s → step s = .next t → LoopAtRest t

/-- R39 and R40 are kept by every event and every step at every value of the parameters, CLOCK_W and RAW_W among
them, not only this hardware's (R44, D17). The parametric machine is the model's own: which definitions take the
parameters is log entry 7, and the event words that `stepWith` reads at a RAW_W other than 16, whose format R82 does
not give, are log entry 20's (DESIGN CHOICE). -/
def Obligations.InvariantsKeptAtEveryParameter : Prop :=
  ∀ (clockW rawW : Nat) (P : Config.Params) (s t : State clockW rawW), PressIsGate s → LoopAtRest s →
    (∀ i : Instr rawW, execWith P i s = .next t → PressIsGate t ∧ LoopAtRest t) ∧
    (stepWith P s = .next t → PressIsGate t ∧ LoopAtRest t)

/-- The parameters' values (R6 to R11), and that `exec` and `step` are the parametric transition and step at them. That
they are separate definitions is the model's, log entry 7 (D17, R44). The event words at every RAW_W that a word has
room for (R82): the payload holds every result, each event's word decodes to it, and no other word does; their format at
a RAW_W other than 16 is log entry 20's (DESIGN CHOICE). -/
def Obligations.HardwareParameters : Prop :=
  hardware.debounceTime = 50 ∧ hardware.doubleClickTime = 500 ∧ hardware.adcReadInterval = 100 ∧
  hardware.scaleDiv = 50 ∧ State = State (clockW := 32) (rawW := 16) ∧
  (∀ (i : Instr) (s : State), exec i s = execWith hardware i s) ∧
  (∀ s : State, step s = stepWith hardware s) ∧
  (∀ rawW : Nat, rawW ≤ 28 → rawW ≤ payloadBits rawW ∧
    ∀ i : Instr rawW, decodeAt rawW (encodeAt rawW i) = .event i) ∧
  ∀ (rawW : Nat) (w : EventWord) (i : Instr rawW), decodeAt rawW w = .event i → encodeAt rawW i = w

/-- Every step keeps R101: Clock is the number of TICKs taken since reset, modulo 2^CLOCK_W. -/
def Obligations.StepKeepsClockCount : Prop :=
  ∀ s t : State, ClockCountsTicks s → step s = .next t → ClockCountsTicks t

/-- Every step keeps R137 while Clock has not wrapped: no pending time stamp is ahead of `now`, nor `now` of Clock. -/
def Obligations.StepKeepsStampOrder : Prop :=
  ∀ s t : State, ClockCountsTicks s → StampsInOrder s → step s = .next t →
    ClockCountsTicks t ∧ StampsInOrder t

/-- From a settled state no classifier line appears without a new edge (R263): without an edge event, `NoClick` is
kept and every new output event is a TickAck, an AdcStart or a value line; and a settled state has `NoClick`. -/
def Obligations.SettledSendsNoClickLine : Prop :=
  (∀ s : State, Settled s → NoClick s) ∧
  ∀ (i : Instr) (s t : State), NoClick s → i ≠ .edgeA → i ≠ .edgeB → exec i s = .next t →
    NoClick t ∧ (t.trace = s.trace ∨ t.trace = s.trace ++ [.tickAck] ∨
      t.trace = s.trace ++ [.adcStart Config.adcChannel] ∨
      ∃ v : Raw, t.trace = s.trace ++ [.txLine (valueLine v)])

/-- `ADVANCE_TO t` (R88) leaves Clock at `t`, from any Clock, and no other register changed, while `rst` is released. A
state at stage 7 is refused instead (R33, R223; PlayStaysAtHeldLine). -/
def Obligations.AdvanceToReaches : Prop :=
  ∀ (s : State) (c : TimeStamp), s.rst = false → s.stage ≠ .unused → ∃ t,
    playEvents (expand s.clock (.advanceTo c)) s = some (.next t) ∧ t.clock = c ∧
    { t with clock := s.clock, trace := s.trace } = s ∧
    t.trace = s.trace ++ List.replicate (c - s.clock).toNat .tickAck

/-- A held line keeps the trace where it is: nothing before it is undone and nothing after it is played (R88; log
entry 13). While `rst` is asserted that is every line with an event (R240). A state whose `stage` is 7 is refused,
whatever trace is played in it, none at all among them (R33, R223; log entry 5). -/
def Obligations.PlayStaysAtHeldLine : Prop :=
  ∀ (s : State) (ls : List TraceLine),
    (s.stage ≠ .unused → s.stage ≠ .idle ∨ s.txBusy = true →
      play (.event .iter :: ls) s = .held (.event .iter :: ls) s ∧
      play (.step :: ls) s = .held (.step :: ls) s) ∧
    (s.stage ≠ .unused → s.rst = true → ∀ l : TraceLine, expand s.clock l ≠ [] →
      play (l :: ls) s = .held (l :: ls) s) ∧
    (s.stage = .unused → play ls s = .refused .unusedStage ∧
      ∀ is : List Instr, playEvents is s = some (.refused .unusedStage))
end

