-- ==== Sys2Proof/Laws/Encode.lean ====
section
/-! SUPPORT. The fields of an event word as numbers, at every RAW_W, for the encoding laws (R14, R80, R82, R84). -/

namespace Sys2Proof

theorem payloadBits_le (rawW : Nat) : payloadBits rawW ≤ 28 := Nat.min_le_left _ _

theorem payloadBits_ge (rawW : Nat) : 16 ≤ payloadBits rawW := by
  simp [payloadBits, maxPayloadBits]

/-- The payload begins above the op, and no higher than R80 has it. -/
theorem payloadLow_bounds (rawW : Nat) : 4 ≤ payloadLow rawW ∧ payloadLow rawW ≤ 16 := by
  have h := payloadBits_le rawW
  have h' := payloadBits_ge rawW
  unfold payloadLow
  omega

/-- The payload ends with the word. -/
theorem payloadLow_add_bits (rawW : Nat) : payloadLow rawW + payloadBits rawW = 32 := by
  have h := payloadBits_le rawW
  unfold payloadLow
  omega

/-- Up to the widest format, the payload holds every result (R82). -/
theorem le_payloadBits {rawW : Nat} (h : rawW ≤ 28) : rawW ≤ payloadBits rawW := by
  simp only [payloadBits, maxPayloadBits]
  omega

/-- R80's places, at RAW_W = 16. -/
@[simp] theorem payloadBits_sixteen : payloadBits 16 = 16 := rfl
@[simp] theorem payloadLow_sixteen : payloadLow 16 = 16 := rfl

@[simp] theorem decodeAt_sixteen (w : EventWord) : decodeAt 16 w = decode w := rfl

@[simp] theorem encodeAt_sixteen (i : Instr) : encodeAt 16 i = encode i := rfl

theorem opField_toNat (w : EventWord) : (opField w).toNat = w.toNat % 16 := by
  simp [opField, BitVec.extractLsb'_toNat]

theorem rsvFieldAt_toNat (w : EventWord) (rawW : Nat) :
    (rsvField w rawW).toNat = w.toNat / 16 % 2 ^ (payloadLow rawW - 4) := by
  simp [rsvField, BitVec.extractLsb'_toNat, Nat.shiftRight_eq_div_pow]

theorem payloadFieldAt_toNat (w : EventWord) (rawW : Nat) :
    (payloadField w rawW).toNat = w.toNat / 2 ^ payloadLow rawW := by
  have hlt : w.toNat / 2 ^ payloadLow rawW < 2 ^ payloadBits rawW :=
    Nat.div_lt_of_lt_mul (by rw [← Nat.pow_add, payloadLow_add_bits]; exact w.isLt)
  rw [payloadField, BitVec.extractLsb'_toNat, Nat.shiftRight_eq_div_pow, Nat.mod_eq_of_lt hlt]

/-- `w[15:4]` (R80). -/
theorem rsvField_toNat (w : EventWord) : (rsvField w).toNat = w.toNat / 16 % 4096 := rsvFieldAt_toNat w 16

/-- `w[31:16]` (R80). -/
theorem payloadField_toNat (w : EventWord) : (payloadField w).toNat = w.toNat / 65536 := payloadFieldAt_toNat w 16

/-- At RAW_W = 16 every payload is a result (R82). -/
@[simp] theorem payloadIsRaw_sixteen (w : EventWord) : payloadIsRaw w = true := by
  have := (payloadField w).isLt
  simp only [payloadBits_sixteen] at this
  simp [payloadIsRaw, maxPayloadBits, this]

/-- ADC_DONE at RAW_W = 16: the result is the payload itself (R82). -/
theorem decodeAdcDone_sixteen (w : EventWord) :
    decodeAdcDone 16 w = .event (.adcDone (payloadField w)) := by
  rw [decodeAdcDone, if_pos (payloadIsRaw_sixteen w)]
  exact congrArg (fun r => Decoded.event (Instr.adcDone r)) (BitVec.setWidth_eq (payloadField w))

/-- The result at the payload's place, and op 5 (R84; `pppp0005` at RAW_W = 16). -/
theorem encodeAt_adcDone_toNat {rawW : Nat} (h : rawW ≤ 28) (raw : Raw rawW) :
    (encodeAt rawW (.adcDone raw)).toNat = raw.toNat * 2 ^ payloadLow rawW + 5 := by
  have hlow := payloadLow_bounds rawW
  have hraw : raw.toNat < 2 ^ payloadBits rawW :=
    Nat.lt_of_lt_of_le raw.isLt (Nat.pow_le_pow_right (by decide) (le_payloadBits h))
  have hlt : raw.toNat * 2 ^ payloadLow rawW < 2 ^ 32 := by
    have := Nat.mul_lt_mul_of_pos_right hraw (Nat.two_pow_pos (payloadLow rawW))
    rwa [← Nat.pow_add, Nat.add_comm, payloadLow_add_bits] at this
  have hr32 : raw.toNat < 2 ^ 32 :=
    Nat.lt_of_lt_of_le hraw (Nat.pow_le_pow_right (by decide) (by have := payloadBits_le rawW; omega))
  have h5 : 5 < 2 ^ payloadLow rawW :=
    Nat.lt_of_lt_of_le (by decide) (Nat.pow_le_pow_right (by decide) hlow.1)
  have hsh : (raw.setWidth 32 <<< payloadLow rawW).toNat = raw.toNat <<< payloadLow rawW := by
    rw [BitVec.toNat_shiftLeft, BitVec.toNat_setWidth, Nat.mod_eq_of_lt hr32,
      Nat.mod_eq_of_lt (by rw [Nat.shiftLeft_eq]; exact hlt)]
  show (raw.setWidth 32 <<< payloadLow rawW ||| 0x00000005#32).toNat = _
  rw [BitVec.toNat_or, hsh, show (0x00000005#32).toNat = 5 from rfl, ← Nat.shiftLeft_add_eq_or_of_lt h5,
    Nat.shiftLeft_eq]

/-- `pppp0005` (R84). -/
theorem encode_adcDone_toNat (raw : Raw) : (encode (.adcDone raw)).toNat = raw.toNat * 65536 + 5 :=
  encodeAt_adcDone_toNat (by decide) raw

/-- The fields of ADC_DONE's word, at every RAW_W a word holds (R80, R82). -/
theorem encodeAt_adcDone_fields {rawW : Nat} (h : rawW ≤ 28) (raw : Raw rawW) :
    opField (encodeAt rawW (.adcDone raw)) = 5 ∧ rsvField (encodeAt rawW (.adcDone raw)) rawW = 0 ∧
      (payloadField (encodeAt rawW (.adcDone raw)) rawW).toNat = raw.toNat := by
  have hw := encodeAt_adcDone_toNat h raw
  obtain ⟨k, hk⟩ : ∃ k, payloadLow rawW = k + 4 :=
    ⟨payloadLow rawW - 4, by have := payloadLow_bounds rawW; omega⟩
  have e : raw.toNat * 2 ^ payloadLow rawW + 5 = 16 * (raw.toNat * 2 ^ k) + 5 := by
    rw [hk, Nat.pow_add]; ring
  refine ⟨BitVec.eq_of_toNat_eq ?_, BitVec.eq_of_toNat_eq ?_, ?_⟩
  · rw [opField_toNat, hw, e]
    simp
  · rw [rsvFieldAt_toNat, hw, e, Nat.mul_add_div (by decide)]
    simp [hk]
  · rw [payloadFieldAt_toNat, hw]
    have h5 : 5 < 2 ^ payloadLow rawW :=
      Nat.lt_of_lt_of_le (by decide) (Nat.pow_le_pow_right (by decide) (payloadLow_bounds rawW).1)
    rw [Nat.mul_comm, Nat.mul_add_div (Nat.two_pow_pos _), Nat.div_eq_of_lt h5, Nat.add_zero]

/-- The three fields are the whole word (R80). -/
theorem word_of_fields (w : EventWord) :
    w.toNat = (payloadField w).toNat * 65536 + (rsvField w).toNat * 16 + (opField w).toNat := by
  have := w.isLt
  rw [payloadFieldAt_toNat, rsvFieldAt_toNat, opField_toNat]
  simp only [payloadLow_sixteen]
  omega

end Sys2Proof
end

