-- ==== Sys2Proof/Laws/State.lean ====
section
/-! SUPPORT. What each state update does to each field, so that no later proof unfolds an update. -/

namespace Sys2Proof.Machine

variable {clockW rawW : Nat}

theorem State.reset_eq : State.reset = State.resetAt 32 16 := rfl

@[simp] theorem emit_clock (o : OutEvent) (s : State clockW rawW) : (emit o s).clock = s.clock := rfl
@[simp] theorem emit_btnA (o : OutEvent) (s : State clockW rawW) : (emit o s).btnA = s.btnA := rfl
@[simp] theorem emit_btnB (o : OutEvent) (s : State clockW rawW) : (emit o s).btnB = s.btnB := rfl
@[simp] theorem emit_now (o : OutEvent) (s : State clockW rawW) : (emit o s).now = s.now := rfl
@[simp] theorem emit_lastSampleTime (o : OutEvent) (s : State clockW rawW) : (emit o s).lastSampleTime = s.lastSampleTime := rfl
@[simp] theorem emit_lastSentValue (o : OutEvent) (s : State clockW rawW) : (emit o s).lastSentValue = s.lastSentValue := rfl
@[simp] theorem emit_lastSentValid (o : OutEvent) (s : State clockW rawW) : (emit o s).lastSentValid = s.lastSentValid := rfl
@[simp] theorem emit_stage (o : OutEvent) (s : State clockW rawW) : (emit o s).stage = s.stage := rfl
@[simp] theorem emit_txBusy (o : OutEvent) (s : State clockW rawW) : (emit o s).txBusy = s.txBusy := rfl
@[simp] theorem emit_trace (o : OutEvent) (s : State clockW rawW) : (emit o s).trace = s.trace ++ [o] := rfl
@[simp] theorem emit_rst (o : OutEvent) (s : State clockW rawW) : (emit o s).rst = s.rst := rfl
@[simp] theorem emit_inputs (o : OutEvent) (s : State clockW rawW) : (emit o s).inputs = s.inputs := rfl

@[simp] theorem setStage_clock (v : Stage) (s : State clockW rawW) : (setStage v s).clock = s.clock := rfl
@[simp] theorem setStage_btnA (v : Stage) (s : State clockW rawW) : (setStage v s).btnA = s.btnA := rfl
@[simp] theorem setStage_btnB (v : Stage) (s : State clockW rawW) : (setStage v s).btnB = s.btnB := rfl
@[simp] theorem setStage_now (v : Stage) (s : State clockW rawW) : (setStage v s).now = s.now := rfl
@[simp] theorem setStage_lastSampleTime (v : Stage) (s : State clockW rawW) : (setStage v s).lastSampleTime = s.lastSampleTime := rfl
@[simp] theorem setStage_lastSentValue (v : Stage) (s : State clockW rawW) : (setStage v s).lastSentValue = s.lastSentValue := rfl
@[simp] theorem setStage_lastSentValid (v : Stage) (s : State clockW rawW) : (setStage v s).lastSentValid = s.lastSentValid := rfl
@[simp] theorem setStage_stage (v : Stage) (s : State clockW rawW) : (setStage v s).stage = v := rfl
@[simp] theorem setStage_txBusy (v : Stage) (s : State clockW rawW) : (setStage v s).txBusy = s.txBusy := rfl
@[simp] theorem setStage_trace (v : Stage) (s : State clockW rawW) : (setStage v s).trace = s.trace := rfl
@[simp] theorem setStage_rst (v : Stage) (s : State clockW rawW) : (setStage v s).rst = s.rst := rfl
@[simp] theorem setStage_inputs (v : Stage) (s : State clockW rawW) : (setStage v s).inputs = s.inputs := rfl

@[simp] theorem emitLine_clock (l : List Byte) (s : State clockW rawW) : (emitLine l s).clock = s.clock := rfl
@[simp] theorem emitLine_btnA (l : List Byte) (s : State clockW rawW) : (emitLine l s).btnA = s.btnA := rfl
@[simp] theorem emitLine_btnB (l : List Byte) (s : State clockW rawW) : (emitLine l s).btnB = s.btnB := rfl
@[simp] theorem emitLine_now (l : List Byte) (s : State clockW rawW) : (emitLine l s).now = s.now := rfl
@[simp] theorem emitLine_lastSampleTime (l : List Byte) (s : State clockW rawW) : (emitLine l s).lastSampleTime = s.lastSampleTime := rfl
@[simp] theorem emitLine_lastSentValue (l : List Byte) (s : State clockW rawW) : (emitLine l s).lastSentValue = s.lastSentValue := rfl
@[simp] theorem emitLine_lastSentValid (l : List Byte) (s : State clockW rawW) : (emitLine l s).lastSentValid = s.lastSentValid := rfl
@[simp] theorem emitLine_stage (l : List Byte) (s : State clockW rawW) : (emitLine l s).stage = s.stage := rfl
@[simp] theorem emitLine_txBusy (l : List Byte) (s : State clockW rawW) : (emitLine l s).txBusy = true := rfl
@[simp] theorem emitLine_trace (l : List Byte) (s : State clockW rawW) : (emitLine l s).trace = s.trace ++ [.txLine l] := rfl
@[simp] theorem emitLine_rst (l : List Byte) (s : State clockW rawW) : (emitLine l s).rst = s.rst := rfl
@[simp] theorem emitLine_inputs (l : List Byte) (s : State clockW rawW) : (emitLine l s).inputs = s.inputs := rfl

@[simp] theorem setBtn_clock (x : Button) (r : ButtonRegs clockW) (s : State clockW rawW) : (setBtn x r s).clock = s.clock := by cases x <;> rfl
@[simp] theorem setBtn_now (x : Button) (r : ButtonRegs clockW) (s : State clockW rawW) : (setBtn x r s).now = s.now := by cases x <;> rfl
@[simp] theorem setBtn_lastSampleTime (x : Button) (r : ButtonRegs clockW) (s : State clockW rawW) : (setBtn x r s).lastSampleTime = s.lastSampleTime := by cases x <;> rfl
@[simp] theorem setBtn_lastSentValue (x : Button) (r : ButtonRegs clockW) (s : State clockW rawW) : (setBtn x r s).lastSentValue = s.lastSentValue := by cases x <;> rfl
@[simp] theorem setBtn_lastSentValid (x : Button) (r : ButtonRegs clockW) (s : State clockW rawW) : (setBtn x r s).lastSentValid = s.lastSentValid := by cases x <;> rfl
@[simp] theorem setBtn_stage (x : Button) (r : ButtonRegs clockW) (s : State clockW rawW) : (setBtn x r s).stage = s.stage := by cases x <;> rfl
@[simp] theorem setBtn_txBusy (x : Button) (r : ButtonRegs clockW) (s : State clockW rawW) : (setBtn x r s).txBusy = s.txBusy := by cases x <;> rfl
@[simp] theorem setBtn_trace (x : Button) (r : ButtonRegs clockW) (s : State clockW rawW) : (setBtn x r s).trace = s.trace := by cases x <;> rfl
@[simp] theorem setBtn_rst (x : Button) (r : ButtonRegs clockW) (s : State clockW rawW) : (setBtn x r s).rst = s.rst := by cases x <;> rfl
@[simp] theorem setBtn_inputs (x : Button) (r : ButtonRegs clockW) (s : State clockW rawW) : (setBtn x r s).inputs = s.inputs := by cases x <;> rfl
@[simp] theorem setBtn_btnA_btnA (r : ButtonRegs clockW) (s : State clockW rawW) : (setBtn .btnA r s).btnA = r := rfl
@[simp] theorem setBtn_btnA_btnB (r : ButtonRegs clockW) (s : State clockW rawW) : (setBtn .btnA r s).btnB = s.btnB := rfl
@[simp] theorem setBtn_btnB_btnA (r : ButtonRegs clockW) (s : State clockW rawW) : (setBtn .btnB r s).btnA = s.btnA := rfl
@[simp] theorem setBtn_btnB_btnB (r : ButtonRegs clockW) (s : State clockW rawW) : (setBtn .btnB r s).btnB = r := rfl

@[simp] theorem btn_btnA (s : State clockW rawW) : btn s .btnA = s.btnA := rfl
@[simp] theorem btn_btnB (s : State clockW rawW) : btn s .btnB = s.btnB := rfl

/-- Reading a button's registers after writing them. -/
@[simp] theorem btn_setBtn_same (x : Button) (r : ButtonRegs clockW) (s : State clockW rawW) : btn (setBtn x r s) x = r := by
  cases x <;> rfl

/-- Writing one button's registers leaves the other's alone (R110, R197). -/
theorem btn_setBtn_other (x y : Button) (r : ButtonRegs clockW) (s : State clockW rawW) (h : y ≠ x) :
    btn (setBtn x r s) y = btn s y := by
  cases x <;> cases y <;> first | rfl | exact absurd rfl h

@[simp] theorem btn_emit (o : OutEvent) (x : Button) (s : State clockW rawW) : btn (emit o s) x = btn s x := by
  cases x <;> rfl
@[simp] theorem btn_setStage (v : Stage) (x : Button) (s : State clockW rawW) : btn (setStage v s) x = btn s x := by
  cases x <;> rfl
@[simp] theorem btn_emitLine (l : List Byte) (x : Button) (s : State clockW rawW) : btn (emitLine l s) x = btn s x := by
  cases x <;> rfl

@[simp] theorem clearTx_clock (s : State clockW rawW) : (clearTx s).clock = s.clock := rfl
@[simp] theorem clearTx_btnA (s : State clockW rawW) : (clearTx s).btnA = s.btnA := rfl
@[simp] theorem clearTx_btnB (s : State clockW rawW) : (clearTx s).btnB = s.btnB := rfl
@[simp] theorem clearTx_now (s : State clockW rawW) : (clearTx s).now = s.now := rfl
@[simp] theorem clearTx_lastSampleTime (s : State clockW rawW) : (clearTx s).lastSampleTime = s.lastSampleTime := rfl
@[simp] theorem clearTx_lastSentValue (s : State clockW rawW) : (clearTx s).lastSentValue = s.lastSentValue := rfl
@[simp] theorem clearTx_lastSentValid (s : State clockW rawW) : (clearTx s).lastSentValid = s.lastSentValid := rfl
@[simp] theorem clearTx_stage (s : State clockW rawW) : (clearTx s).stage = s.stage := rfl
@[simp] theorem clearTx_txBusy (s : State clockW rawW) : (clearTx s).txBusy = false := rfl
@[simp] theorem clearTx_trace (s : State clockW rawW) : (clearTx s).trace = s.trace := rfl
@[simp] theorem clearTx_rst (s : State clockW rawW) : (clearTx s).rst = s.rst := rfl
@[simp] theorem clearTx_inputs (s : State clockW rawW) : (clearTx s).inputs = s.inputs := rfl
@[simp] theorem btn_clearTx (x : Button) (s : State clockW rawW) : btn (clearTx s) x = btn s x := by
  cases x <;> rfl

end Sys2Proof.Machine
end

