-- ==== Sys2Proof/Laws/Ops.lean ====
section
/-! SUPPORT. One spec lemma for each operation and stage action: everything it can do. -/

namespace Sys2Proof.Machine

variable {clockW rawW : Nat}

@[simp] theorem hardware_debounceTime : hardware.debounceTime = 50 := rfl
@[simp] theorem hardware_doubleClickTime : hardware.doubleClickTime = 500 := rfl
@[simp] theorem hardware_adcReadInterval : hardware.adcReadInterval = 100 := rfl
@[simp] theorem hardware_scaleDiv : hardware.scaleDiv = 50 := rfl
@[simp] theorem hardware_adcChannel : hardware.adcChannel = Config.adcChannel := rfl

/-- R15: `elapsed` is a value below 2^CLOCK_W. -/
theorem elapsed_lt (x y : TimeStamp clockW) : elapsed x y < 2 ^ clockW := (x - y).isLt

/-- R15: while nothing has wrapped, `elapsed` is the plain difference. -/
theorem elapsed_of_le (x y : TimeStamp clockW) (h : y ≤ x) : elapsed x y = x.toNat - y.toNat :=
  BitVec.toNat_sub_of_le h

theorem loopIdle_iff (s : State clockW rawW) : loopIdle s = true ↔ s.stage = .idle ∧ s.txBusy = false := by
  simp [loopIdle]

theorem adcBusy_iff (s : State clockW rawW) : adcBusy s = true ↔ s.stage = .adcWait := by simp [adcBusy]

theorem loopBlocked_iff (s : State clockW rawW) :
    loopBlocked s = true ↔ s.txBusy = true ∨ s.stage = .idle ∨ s.stage = .adcWait := by
  simp [loopBlocked, or_assoc]

/-- R16, R152: the scaled value is the truncated quotient, whatever the divisor. -/
theorem scaled_toNat (P : Config.Params) (raw : Raw rawW) : (scaled P raw).toNat = raw.toNat / P.scaleDiv := by
  exact Nat.mod_eq_of_lt (Nat.lt_of_le_of_lt (Nat.div_le_self _ _) raw.isLt)

/-- EDGE_b on its two paths (R110). -/
theorem edge_cases (P : Config.Params) (x : Button) (s : State clockW rawW) :
    (P.debounceTime < elapsed s.clock (btn s x).lastRecordedTime ∧
      edge P x s = setBtn x (recordEdge s.clock (btn s x)) (emit (.edgeAck x) s)) ∨
    (elapsed s.clock (btn s x).lastRecordedTime ≤ P.debounceTime ∧ edge P x s = emit (.edgeAck x) s) := by
  by_cases h : P.debounceTime < elapsed s.clock (btn s x).lastRecordedTime
  · exact .inl ⟨h, by simp [edge, edgeAccepted, h]⟩
  · exact .inr ⟨Nat.le_of_not_lt h, by simp [edge, edgeAccepted, h]⟩

/-- ANALOG on its two paths (R150). -/
theorem analogCheck_cases (P : Config.Params) (s : State clockW rawW) :
    (P.adcReadInterval ≤ elapsed s.now s.lastSampleTime ∧
      analogCheck P s = setStage .adcWait (emit (.adcStart P.adcChannel) { s with lastSampleTime := s.now })) ∨
    (elapsed s.now s.lastSampleTime < P.adcReadInterval ∧ analogCheck P s = setStage .clsAEdge s) := by
  by_cases h : P.adcReadInterval ≤ elapsed s.now s.lastSampleTime
  · exact .inl ⟨h, by simp [analogCheck, sampleDue, h]⟩
  · exact .inr ⟨Nat.lt_of_not_le h, by simp [analogCheck, sampleDue, h]⟩

/-- CLS_b_EDGE on its three paths (R131): no edge, a double-click, a new or restarted window. -/
theorem clsEdge_cases (P : Config.Params) (x : Button) (s : State clockW rawW) :
    ((btn s x).edgeSeen = false ∧ clsEdge P x s = setStage (afterEdge x) s) ∨
    ((btn s x).edgeSeen = true ∧ completesDouble P (btn s x).pendingClickTime (btn s x).edgeTime = true ∧
      clsEdge P x s =
        emitLine (doubleLine x) (setStage (afterEdge x) (setBtn x (consumeEdge 0 (btn s x)) s))) ∨
    ((btn s x).edgeSeen = true ∧ completesDouble P (btn s x).pendingClickTime (btn s x).edgeTime = false ∧
      clsEdge P x s = setStage (afterEdge x) (setBtn x (consumeEdge (btn s x).edgeTime (btn s x)) s)) := by
  unfold clsEdge
  cases (btn s x).edgeSeen <;>
    cases completesDouble P (btn s x).pendingClickTime (btn s x).edgeTime <;> simp

/-- CLS_b_TO on its two paths (R132). -/
theorem clsTo_cases (P : Config.Params) (x : Button) (s : State clockW rawW) :
    (timedOut P (btn s x).pendingClickTime s.now = true ∧
      clsTo P x s =
        emitLine (timeoutLine x)
          (setStage (afterTo x) (setBtn x { btn s x with pendingClickTime := 0 } s))) ∨
    (timedOut P (btn s x).pendingClickTime s.now = false ∧ clsTo P x s = setStage (afterTo x) s) := by
  unfold clsTo
  cases timedOut P (btn s x).pendingClickTime s.now <;> simp

/-- The delivery of a result on its two paths (R151). -/
theorem deliver_cases (P : Config.Params) (raw : Raw rawW) (s : State clockW rawW) :
    (mustSend (scaled P raw) s = true ∧
      deliver P raw s =
        emitLine (valueLine (scaled P raw))
          { setStage .clsAEdge s with lastSentValue := scaled P raw, lastSentValid := true }) ∨
    (mustSend (scaled P raw) s = false ∧ deliver P raw s = setStage .clsAEdge s) := by
  unfold deliver
  cases mustSend (scaled P raw) s <;> simp

/-- `exec` is the parametric transition at this hardware's parameter values (D17). -/
theorem exec_eq_execWith (i : Instr) (s : State) : exec i s = execWith hardware i s := by
  cases i <;> rfl

end Sys2Proof.Machine
end

