-- ==== Sys2Proof/Laws/RunLoop.lean ====
section
/-! SUPPORT. RunLoop (R191): its loop equation, its termination, and the one induction every property of it uses. -/

namespace Sys2Proof.Machine

variable {clockW rawW : Nat}

/-- How many actions are left before the iteration has ended or blocked (R191, R192). -/
def actionsLeft (s : State clockW rawW) : Nat :=
  if s.txBusy then 0 else
  match s.stage with
  | .idle => 0
  | .analog => 5
  | .adcWait => 0
  | .clsAEdge => 4
  | .clsATo => 3
  | .clsBEdge => 2
  | .clsBTo => 1
  | .unused => 0

theorem actionsLeft_le_five (s : State clockW rawW) : actionsLeft s ≤ 5 := by
  unfold actionsLeft
  cases s.txBusy <;> cases s.stage <;> simp

/-- A stage moves strictly forward, or the loop blocks (R191). -/
theorem actionsLeft_stageAction (P : Config.Params) (s : State clockW rawW) (hb : loopBlocked s = false)
    (hu : s.stage ≠ .unused) : actionsLeft (stageAction P s) < actionsLeft s := by
  have ht : s.txBusy = false := by
    cases h : s.txBusy
    · rfl
    · simp [loopBlocked, h] at hb
  unfold stageAction
  cases h : s.stage <;> simp only
  case idle => simp [loopBlocked, h] at hb
  case adcWait => simp [loopBlocked, h] at hb
  case unused => exact absurd h hu
  case analog =>
    obtain ⟨-, e⟩ | ⟨-, e⟩ := analogCheck_cases P s <;> simp [e, actionsLeft, ht, h]
  case clsAEdge =>
    obtain ⟨-, e⟩ | ⟨-, -, e⟩ | ⟨-, -, e⟩ := clsEdge_cases P .btnA s <;>
      simp [e, actionsLeft, ht, h, afterEdge]
  case clsATo =>
    obtain ⟨-, e⟩ | ⟨-, e⟩ := clsTo_cases P .btnA s <;> simp [e, actionsLeft, ht, h, afterTo]
  case clsBEdge =>
    obtain ⟨-, e⟩ | ⟨-, -, e⟩ | ⟨-, -, e⟩ := clsEdge_cases P .btnB s <;>
      simp [e, actionsLeft, ht, h, afterEdge]
  case clsBTo =>
    obtain ⟨-, e⟩ | ⟨-, e⟩ := clsTo_cases P .btnB s <;> simp [e, actionsLeft, ht, h, afterTo]

/-- A stage action never writes the unused stage (R33). -/
theorem stageAction_stage_ne_unused (P : Config.Params) (s : State clockW rawW) (hu : s.stage ≠ .unused) :
    (stageAction P s).stage ≠ .unused := by
  unfold stageAction
  cases h : s.stage <;> simp only
  case unused => exact absurd h hu
  case analog => obtain ⟨-, e⟩ | ⟨-, e⟩ := analogCheck_cases P s <;> simp [e]
  case clsAEdge =>
    obtain ⟨-, e⟩ | ⟨-, -, e⟩ | ⟨-, -, e⟩ := clsEdge_cases P .btnA s <;> simp [e, afterEdge]
  case clsATo => obtain ⟨-, e⟩ | ⟨-, e⟩ := clsTo_cases P .btnA s <;> simp [e, afterTo]
  case clsBEdge =>
    obtain ⟨-, e⟩ | ⟨-, -, e⟩ | ⟨-, -, e⟩ := clsEdge_cases P .btnB s <;> simp [e, afterEdge]
  case clsBTo => obtain ⟨-, e⟩ | ⟨-, e⟩ := clsTo_cases P .btnB s <;> simp [e, afterTo]
  all_goals simp [h]

/-- THE ONE INDUCTION: a property that every unblocked stage action keeps holds where the loop stops, and the loop
stops blocked. -/
theorem runLoopFor_spec (P : Config.Params) (I : State clockW rawW → Prop)
    (keep : ∀ s, I s → loopBlocked s = false → s.stage ≠ .unused → I (stageAction P s)) :
    ∀ (n : Nat) (s : State clockW rawW), actionsLeft s ≤ n → s.stage ≠ .unused → I s →
      ∃ t, runLoopFor P n s = .next t ∧ I t ∧ loopBlocked t = true ∧ t.stage ≠ .unused
  | 0, s, hn, hu, hI => by
    refine ⟨s, rfl, hI, ?_, hu⟩
    by_contra hb
    have := actionsLeft_stageAction P s (by simpa using hb) hu
    omega
  | n + 1, s, hn, hu, hI => by
    unfold runLoopFor
    by_cases hb : loopBlocked s = true
    · exact ⟨s, by simp [hb], hI, hb, hu⟩
    · have hb' : loopBlocked s = false := by simpa using hb
      have hlt := actionsLeft_stageAction P s hb' hu
      obtain ⟨t, ht, h⟩ := runLoopFor_spec P I keep n (stageAction P s) (by omega)
        (stageAction_stage_ne_unused P s hu) (keep s hI hb' hu)
      exact ⟨t, by simp [hb', hu, ht], h⟩

/-- RunLoop answers a next state, blocked or ended, with whatever every stage action keeps (R191). -/
theorem runLoop_spec (P : Config.Params) (I : State clockW rawW → Prop)
    (keep : ∀ s, I s → loopBlocked s = false → s.stage ≠ .unused → I (stageAction P s))
    (s : State clockW rawW) (hu : s.stage ≠ .unused) (hI : I s) :
    ∃ t, runLoop P s = .next t ∧ I t ∧ loopBlocked t = true ∧ t.stage ≠ .unused :=
  runLoopFor_spec P I keep 5 s (actionsLeft_le_five s) hu hI

/-- The same, read from an answer. -/
theorem runLoop_keeps (P : Config.Params) (I : State clockW rawW → Prop)
    (keep : ∀ s, I s → loopBlocked s = false → s.stage ≠ .unused → I (stageAction P s))
    (s t : State clockW rawW) (hu : s.stage ≠ .unused) (hI : I s) (h : runLoop P s = .next t) :
    I t ∧ loopBlocked t = true ∧ t.stage ≠ .unused := by
  obtain ⟨t', ht, h'⟩ := runLoop_spec P I keep s hu hI
  rw [h] at ht
  cases ht
  exact h'

/-- A blocked loop does nothing (R191). -/
theorem runLoop_blocked (P : Config.Params) (s : State clockW rawW) (hb : loopBlocked s = true) :
    runLoop P s = .next s := by
  simp [runLoop, runLoopFor, hb]

/-- `stage = 7` is refused (R33, R191, R223). -/
theorem runLoop_unused (P : Config.Params) (s : State clockW rawW) (hs : s.stage = .unused) (hb : s.txBusy = false) :
    runLoop P s = .refused .unusedStage := by
  simp [runLoop, runLoopFor, loopBlocked, hs, hb]

/-- Fuel beyond the actions left changes nothing. -/
theorem runLoopFor_more (P : Config.Params) :
    ∀ (n : Nat) (s : State clockW rawW), actionsLeft s ≤ n → s.stage ≠ .unused →
      runLoopFor P (n + 1) s = runLoopFor P n s
  | 0, s, hn, hu => by
    have hb : loopBlocked s = true := by
      by_contra hb
      have := actionsLeft_stageAction P s (by simpa using hb) hu
      omega
    simp [runLoopFor, hb]
  | n + 1, s, hn, hu => by
    rw [runLoopFor]
    conv => rhs; rw [runLoopFor]
    by_cases hb : loopBlocked s = true
    · simp [hb]
    · have hb' : loopBlocked s = false := by simpa using hb
      have hlt := actionsLeft_stageAction P s hb' hu
      simp only [hb', hu]
      simpa using runLoopFor_more P n (stageAction P s) (by omega) (stageAction_stage_ne_unused P s hu)

/-- One turn of the loop (R191). -/
theorem runLoop_turn (P : Config.Params) (s : State clockW rawW) (hb : loopBlocked s = false) (hu : s.stage ≠ .unused) :
    runLoop P s = runLoop P (stageAction P s) := by
  have hlt := actionsLeft_stageAction P s hb hu
  have hle := actionsLeft_le_five s
  have e : runLoop P s = runLoopFor P 4 (stageAction P s) := by
    simp [runLoop, runLoopFor, hb, hu]
  rw [e]
  exact (runLoopFor_more P 4 (stageAction P s) (by omega) (stageAction_stage_ne_unused P s hu)).symm

end Sys2Proof.Machine
end

