-- ==== Sys2Proof/Laws/Exec.lean ====
section
/-! SUPPORT. What each event and each step can do, said once: the inversion lemmas that invariants cite. -/

namespace Sys2Proof.Machine

variable {clockW rawW : Nat}

/-- Where an accepted ITER starts its loop: the snapshot is taken and the stage is ANALOG (R190). -/
def iterStart (s : State clockW rawW) : State clockW rawW := setStage .analog (snapshot s)

/-- ITER is held, or it runs the loop from the snapshot (R190, R194). -/
theorem iterWith_cases (P : Config.Params) (s : State clockW rawW) :
    (loopIdle s = false ∧ iterWith P s = .next s) ∨
    (loopIdle s = true ∧ iterWith P s = runLoop P (iterStart s)) := by
  cases h : loopIdle s <;> simp [iterWith, h, iterStart]

/-- ADC_DONE is ignored, or it is delivered and the loop resumes (R151, R155). -/
theorem adcDoneWith_cases (P : Config.Params) (raw : Raw rawW) (s : State clockW rawW) :
    (adcBusy s = false ∧ adcDoneWith P raw s = .next s) ∨
    (adcBusy s = true ∧ adcDoneWith P raw s = runLoop P (deliver P raw s)) := by
  cases h : adcBusy s <;> simp [adcDoneWith, h]

/-- TX_DONE is ignored, or the line is complete and the loop resumes (R175). -/
theorem txDoneWith_cases (P : Config.Params) (s : State clockW rawW) :
    (s.txBusy = false ∧ txDoneWith P s = .next s) ∨
    (s.txBusy = true ∧ txDoneWith P s = runLoop P (clearTx s)) := by
  cases h : s.txBusy <;> simp [txDoneWith, h]

theorem deliver_stage (P : Config.Params) (raw : Raw rawW) (s : State clockW rawW) : (deliver P raw s).stage = .clsAEdge := by
  obtain ⟨-, e⟩ | ⟨-, e⟩ := deliver_cases P raw s <;> simp [e]

/-- The six transitions keep what each of their parts keeps. `start` is what holds of a resumed loop: it may be
weaker at a state that is still to run than `I` is where the loop rests. -/
theorem execWith_keeps (P : Config.Params) (I J : State clockW rawW → Prop)
    (hTick : ∀ s, I s → I (tick s))
    (hEdge : ∀ x s, I s → I (edge P x s))
    (hIter : ∀ s, I s → loopIdle s = true → J (iterStart s))
    (hAdc : ∀ raw s, I s → s.stage = .adcWait → J (deliver P raw s))
    (hTx : ∀ s, I s → s.txBusy = true → s.stage ≠ .unused → J (clearTx s))
    (keep : ∀ s, J s → loopBlocked s = false → s.stage ≠ .unused → J (stageAction P s))
    (rest : ∀ s, J s → loopBlocked s = true → I s)
    (i : Instr rawW) (s t : State clockW rawW) (hs : I s) (h : execWith P i s = .next t) : I t := by
  have run : ∀ u, u.stage ≠ .unused → J u → runLoop P u = .next t → I t := fun u hu hJ hr => by
    obtain ⟨hJt, hb, -⟩ := runLoop_keeps P J keep u t hu hJ hr
    exact rest t hJt hb
  cases i with
  | tick => cases h; exact hTick s hs
  | edgeA => cases h; exact hEdge .btnA s hs
  | edgeB => cases h; exact hEdge .btnB s hs
  | iter =>
    simp only [execWith] at h
    obtain ⟨-, e⟩ | ⟨hi, e⟩ := iterWith_cases P s
    · rw [e] at h; cases h; exact hs
    · rw [e] at h; exact run _ (by simp [iterStart]) (hIter s hs hi) h
  | adcDone raw =>
    simp only [execWith] at h
    obtain ⟨-, e⟩ | ⟨ha, e⟩ := adcDoneWith_cases P raw s
    · rw [e] at h; cases h; exact hs
    · rw [e] at h
      exact run _ (by simp [deliver_stage]) (hAdc _ s hs ((adcBusy_iff s).mp ha)) h
  | txDone =>
    simp only [execWith] at h
    obtain ⟨-, e⟩ | ⟨ht, e⟩ := txDoneWith_cases P s
    · rw [e] at h; cases h; exact hs
    · rw [e] at h
      by_cases hu : s.stage = .unused
      · rw [runLoop_unused P (clearTx s) hu rfl] at h; cases h
      · exact run (clearTx s) hu (hTx s hs ht hu) h

/-- Taking the first acceptable input splits the offers there. -/
theorem firstAccepted_some (p : HostInput → Bool) :
    ∀ (l : List HostInput) (x : HostInput) (rest : List HostInput),
      firstAccepted p l = some (x, rest) →
        ∃ held post, l = held ++ x :: post ∧ rest = held ++ post ∧ p x = true ∧ ∀ y ∈ held, p y = false
  | [], _, _, h => by simp [firstAccepted] at h
  | y :: ys, x, rest, h => by
    unfold firstAccepted at h
    by_cases hp : p y = true
    · simp only [hp, if_true, Option.some.injEq, Prod.mk.injEq] at h
      obtain ⟨rfl, rfl⟩ := h
      exact ⟨[], ys, rfl, rfl, hp, by simp⟩
    · simp only [hp] at h
      cases hf : firstAccepted p ys with
      | none => simp [hf] at h
      | some q =>
        obtain ⟨z, zs⟩ := q
        simp only [hf, Bool.false_eq_true, if_false, Option.some.injEq, Prod.mk.injEq] at h
        obtain ⟨rfl, rfl⟩ := h
        obtain ⟨held, post, rfl, rfl, hz, hh⟩ := firstAccepted_some p ys z zs hf
        refine ⟨y :: held, post, rfl, rfl, hz, fun w hw => ?_⟩
        rcases List.mem_cons.mp hw with rfl | hw
        · simpa using hp
        · exact hh w hw

/-- Nothing is taken exactly where nothing is acceptable. -/
theorem firstAccepted_none (p : HostInput → Bool) :
    ∀ (l : List HostInput), firstAccepted p l = none ↔ ∀ y ∈ l, p y = false
  | [] => by simp [firstAccepted]
  | y :: ys => by
    have ih := firstAccepted_none p ys
    unfold firstAccepted
    cases hp : p y
    · cases hf : firstAccepted p ys with
      | none => simpa [hp] using ih.mp hf
      | some q =>
        have : ¬ ∀ z ∈ ys, p z = false := fun hn => by simp [ih.mpr hn] at hf
        simpa [hp] using this
    · simp [hp]

/-- Offers that are not acceptable are stepped over. -/
theorem firstAccepted_skip (p : HostInput → Bool) (x : HostInput) (post : List HostInput) (hx : p x = true) :
    ∀ (held : List HostInput), (∀ y ∈ held, p y = false) →
      firstAccepted p (held ++ x :: post) = some (x, held ++ post)
  | [], _ => by simp [firstAccepted, hx]
  | y :: ys, h => by
    have hy := h y (by simp)
    have := firstAccepted_skip p x post hx ys (fun z hz => h z (by simp [hz]))
    simp [firstAccepted, hy, this]

/-- The fetch word is the only offer, and `rst` is released. -/
theorem withFetchWord_word (s : State) (w : EventWord) :
    s.withFetchWord 32 w.toNat = { s with rst := false, inputs := [.offer w] } := by
  have h : w.toNat % 2 ^ 32 = w.toNat := Nat.mod_eq_of_lt w.isLt
  rw [State.withFetchWord, h, BitVec.ofNat_toNat, BitVec.setWidth_eq]

/-- Everything a step can do, whatever runs its events: rest, drive the reset line, or run the event it takes (R3,
R66, R240). -/
theorem stepBy_cases {run : Instr rawW → State clockW rawW → Host.Outcome (State clockW rawW) Fault Refusal}
    {s t : State clockW rawW} (h : stepBy run s = .next t) :
    (t = s ∧ s.stage ≠ .unused) ∨
    (∃ level rest, t = driveRst level { s with inputs := rest } ∧
      (s.stage = .unused → driveResets level s = true)) ∨
    (∃ i rest, accepts s i = true ∧ s.rst = false ∧ s.stage ≠ .unused ∧
      run i { s with inputs := rest } = .next t) := by
  unfold stepBy fetch at h
  cases hf : firstAccepted (inputAccepted s) s.inputs with
  | none =>
    rw [hf] at h
    by_cases hu : s.stage = .unused
    · simp [hu] at h
    · simp only [hu, if_false] at h
      cases h
      exact .inl ⟨rfl, hu⟩
  | some q =>
    obtain ⟨x, rest⟩ := q
    rw [hf] at h
    cases x with
    | rst level =>
      by_cases hr : s.stage = .unused ∧ driveResets level s = false
      · simp [hr] at h
      · simp only [hr, if_false] at h
        cases h
        exact .inr (.inl ⟨level, rest, rfl, fun hu => by simpa [hu] using hr⟩)
    | offer w =>
      by_cases hu : s.stage = .unused
      · simp [hu] at h
      · simp only [hu, if_false] at h
        obtain ⟨-, -, -, -, ha, -⟩ := firstAccepted_some _ _ _ _ hf
        cases hd : decodeAt rawW w with
        | reserved why => simp [hd] at h
        | event i =>
          simp only [hd] at h
          simp only [inputAccepted, offerAccepted, hd, Bool.and_eq_true, Bool.not_eq_true'] at ha
          exact .inr (.inr ⟨i, rest, ha.2, ha.1, hu, h⟩)

/-- A property of the registers and the trace that reset establishes and every event keeps is kept by every step. -/
theorem stepBy_keeps {run : Instr rawW → State clockW rawW → Host.Outcome (State clockW rawW) Fault Refusal}
    (I : State clockW rawW → Prop)
    (inputs : ∀ s rest, I s → I { s with inputs := rest })
    (reset : ∀ s level, I { applyReset s with rst := level })
    (events : ∀ i s t, I s → run i s = .next t → I t)
    {s t : State clockW rawW} (hs : I s) (h : stepBy run s = .next t) : I t := by
  obtain ⟨rfl, -⟩ | ⟨level, rest, rfl, -⟩ | ⟨i, rest, -, -, -, he⟩ := stepBy_cases h
  · exact hs
  · unfold driveRst
    split
    · exact reset _ level
    · exact inputs s rest hs
  · exact events i _ t (inputs s rest hs) he

/-- The step of this hardware is the parametric step at its values (R44). -/
theorem step_eq_stepWith (s : State) : step s = stepWith hardware s := by
  have : exec = execWith hardware := funext fun i => funext (exec_eq_execWith i)
  rw [step, stepWith, this]

end Sys2Proof.Machine
end

