-- ==== Sys2Proof/Laws/PerInstr.lean ====
section
/-! SUPPORT. Per-instruction laws about an event as syntax. Family EncodedWord: the word of every event is well
formed by the check of WellFormed.lean, which is written without the decoder (R83, R84). -/

namespace Sys2Proof.Laws.EncodedWord

/-- The word of the event spells an operation. -/
def Statement (i : Instr) : Prop := wordWellFormed (encode i) = true

theorem tick : Statement .tick := by unfold Statement; decide
theorem edgeA : Statement .edgeA := by unfold Statement; decide
theorem edgeB : Statement .edgeB := by unfold Statement; decide
theorem iter : Statement .iter := by unfold Statement; decide
theorem txDone : Statement .txDone := by unfold Statement; decide

theorem adcDone (raw : Raw) : Statement (.adcDone raw) := by
  obtain ⟨hop, hrsv, -⟩ := encodeAt_adcDone_fields (by decide) raw
  rw [encodeAt_sixteen] at hop hrsv
  simp [Statement, wordWellFormed, opDefined, rsvZero, payloadAllowed, hop, hrsv]

end Sys2Proof.Laws.EncodedWord
end

