-- ==== Sys2Proof/Laws/Stages.lean ====
section
/-! SUPPORT. The stages one by one: each path of a stage action under its condition (R131, R132, R150), one turn of
RunLoop at each stage (R191), what every stage action leaves alone (R196, R197) and what it may output. -/

namespace Sys2Proof.Machine

variable {clockW rawW : Nat}

variable {P : Config.Params} {x : Button} {s : State clockW rawW}

/-! ### One path each -/

theorem clsEdge_unseen (h : (btn s x).edgeSeen = false) : clsEdge P x s = setStage (afterEdge x) s := by
  simp [clsEdge, h]

theorem clsEdge_double (hs : (btn s x).edgeSeen = true) (hp : (btn s x).pendingClickTime ≠ 0)
    (hg : elapsed (btn s x).edgeTime (btn s x).pendingClickTime < P.doubleClickTime) :
    clsEdge P x s =
      emitLine (doubleLine x) (setStage (afterEdge x) (setBtn x (consumeEdge 0 (btn s x)) s)) := by
  have : completesDouble P (btn s x).pendingClickTime (btn s x).edgeTime = true := by
    simpa [completesDouble, hg] using hp
  simp [clsEdge, this, hs]

theorem clsEdge_window (hs : (btn s x).edgeSeen = true)
    (h : (btn s x).pendingClickTime = 0 ∨
      P.doubleClickTime ≤ elapsed (btn s x).edgeTime (btn s x).pendingClickTime) :
    clsEdge P x s = setStage (afterEdge x) (setBtn x (consumeEdge (btn s x).edgeTime (btn s x)) s) := by
  have : completesDouble P (btn s x).pendingClickTime (btn s x).edgeTime = false := by
    rcases h with h | h <;> simp [completesDouble, h]
  simp [clsEdge, this, hs]

theorem clsTo_waits
    (h : (btn s x).pendingClickTime = 0 ∨ elapsed s.now (btn s x).pendingClickTime ≤ P.doubleClickTime) :
    clsTo P x s = setStage (afterTo x) s := by
  have : timedOut P (btn s x).pendingClickTime s.now = false := by
    rcases h with h | h <;> simp [timedOut, h]
  simp [clsTo, this]

theorem clsTo_fires (hp : (btn s x).pendingClickTime ≠ 0)
    (hg : P.doubleClickTime < elapsed s.now (btn s x).pendingClickTime) :
    clsTo P x s =
      emitLine (timeoutLine x)
        (setStage (afterTo x) (setBtn x { btn s x with pendingClickTime := 0 } s)) := by
  have : timedOut P (btn s x).pendingClickTime s.now = true := by
    simpa [timedOut, hg] using hp
  simp [clsTo, this]

theorem snapshotBtn_pressed {r : ButtonRegs clockW} (h : r.pressed = true) :
    snapshotBtn r = { r with edgeSeen := true, edgeTime := r.pressTime, pressed := false } := by
  simp [snapshotBtn, h]

theorem snapshotBtn_released {r : ButtonRegs clockW} (h : r.pressed = false) :
    snapshotBtn r = { r with edgeSeen := false } := by
  simp [snapshotBtn, h]

@[simp] theorem iterStart_btnA (s : State clockW rawW) : (iterStart s).btnA = snapshotBtn s.btnA := rfl
@[simp] theorem iterStart_btnB (s : State clockW rawW) : (iterStart s).btnB = snapshotBtn s.btnB := rfl
@[simp] theorem iterStart_now (s : State clockW rawW) : (iterStart s).now = s.clock := rfl
@[simp] theorem iterStart_stage (s : State clockW rawW) : (iterStart s).stage = .analog := rfl
@[simp] theorem iterStart_txBusy (s : State clockW rawW) : (iterStart s).txBusy = s.txBusy := rfl
@[simp] theorem iterStart_trace (s : State clockW rawW) : (iterStart s).trace = s.trace := rfl
@[simp] theorem iterStart_clock (s : State clockW rawW) : (iterStart s).clock = s.clock := rfl
@[simp] theorem iterStart_lastSampleTime (s : State clockW rawW) : (iterStart s).lastSampleTime = s.lastSampleTime := rfl

/-! ### One turn each -/

theorem runLoop_analog (ht : s.txBusy = false) (h : s.stage = .analog) :
    runLoop P s = runLoop P (analogCheck P s) := by
  rw [runLoop_turn P s (by simp [loopBlocked, h, ht]) (by simp [h])]
  simp [stageAction, h]

theorem runLoop_clsAEdge (ht : s.txBusy = false) (h : s.stage = .clsAEdge) :
    runLoop P s = runLoop P (clsEdge P .btnA s) := by
  rw [runLoop_turn P s (by simp [loopBlocked, h, ht]) (by simp [h])]
  simp [stageAction, h]

theorem runLoop_clsATo (ht : s.txBusy = false) (h : s.stage = .clsATo) :
    runLoop P s = runLoop P (clsTo P .btnA s) := by
  rw [runLoop_turn P s (by simp [loopBlocked, h, ht]) (by simp [h])]
  simp [stageAction, h]

theorem runLoop_clsBEdge (ht : s.txBusy = false) (h : s.stage = .clsBEdge) :
    runLoop P s = runLoop P (clsEdge P .btnB s) := by
  rw [runLoop_turn P s (by simp [loopBlocked, h, ht]) (by simp [h])]
  simp [stageAction, h]

theorem runLoop_clsBTo (ht : s.txBusy = false) (h : s.stage = .clsBTo) :
    runLoop P s = runLoop P (clsTo P .btnB s) := by
  rw [runLoop_turn P s (by simp [loopBlocked, h, ht]) (by simp [h])]
  simp [stageAction, h]

/-! ### Every stage action -/

/-- The stage actions as one list of cases: what a proof over all of them splits on (R191). -/
theorem stageAction_cases (P : Config.Params) (s : State clockW rawW) :
    stageAction P s = s ∨ (s.stage = .analog ∧ stageAction P s = analogCheck P s) ∨
    (∃ x, s.stage = (match x with | .btnA => .clsAEdge | .btnB => .clsBEdge) ∧
      stageAction P s = clsEdge P x s) ∨
    (∃ x, s.stage = (match x with | .btnA => .clsATo | .btnB => .clsBTo) ∧
      stageAction P s = clsTo P x s) := by
  unfold stageAction
  cases h : s.stage
  case analog => exact .inr (.inl ⟨rfl, rfl⟩)
  case clsAEdge => exact .inr (.inr (.inl ⟨.btnA, rfl, rfl⟩))
  case clsATo => exact .inr (.inr (.inr ⟨.btnA, rfl, rfl⟩))
  case clsBEdge => exact .inr (.inr (.inl ⟨.btnB, rfl, rfl⟩))
  case clsBTo => exact .inr (.inr (.inr ⟨.btnB, rfl, rfl⟩))
  all_goals exact .inl rfl

/-- What the registers of a button share before and after any stage action (R36, R196). -/
def SameCapture (r r' : ButtonRegs clockW) : Prop :=
  r'.lastRecordedTime = r.lastRecordedTime ∧ r'.pressTime = r.pressTime ∧ r'.pressed = r.pressed ∧
    r'.edgeTime = r.edgeTime

/-- What no stage action changes (R36, R196, R197): the interrupt context's registers, `now`, the last sent value, the
copied edge times, the inputs. -/
def SameFrame (s t : State clockW rawW) : Prop :=
  t.clock = s.clock ∧ t.now = s.now ∧ t.lastSentValue = s.lastSentValue ∧
    t.lastSentValid = s.lastSentValid ∧ t.rst = s.rst ∧ t.inputs = s.inputs ∧
    ∀ x, SameCapture (btn s x) (btn t x)

theorem SameFrame.refl (s : State clockW rawW) : SameFrame s s :=
  ⟨rfl, rfl, rfl, rfl, rfl, rfl, fun _ => ⟨rfl, rfl, rfl, rfl⟩⟩

theorem SameFrame.trans {s t u : State clockW rawW} (h : SameFrame s t) (k : SameFrame t u) : SameFrame s u := by
  obtain ⟨a1, a2, a3, a4, a5, a6, a7⟩ := h
  obtain ⟨b1, b2, b3, b4, b5, b6, b7⟩ := k
  refine ⟨b1.trans a1, b2.trans a2, b3.trans a3, b4.trans a4, b5.trans a5, b6.trans a6, fun x => ?_⟩
  obtain ⟨c1, c2, c3, c4⟩ := a7 x
  obtain ⟨d1, d2, d3, d4⟩ := b7 x
  exact ⟨d1.trans c1, d2.trans c2, d3.trans c3, d4.trans c4⟩

theorem analogCheck_frame (P : Config.Params) (s : State clockW rawW) : SameFrame s (analogCheck P s) := by
  obtain ⟨-, e⟩ | ⟨-, e⟩ := analogCheck_cases P s <;> rw [e] <;>
    exact ⟨rfl, rfl, rfl, rfl, rfl, rfl, fun x => by cases x <;> exact ⟨rfl, rfl, rfl, rfl⟩⟩

theorem clsEdge_frame (P : Config.Params) (x : Button) (s : State clockW rawW) : SameFrame s (clsEdge P x s) := by
  obtain ⟨-, e⟩ | ⟨-, -, e⟩ | ⟨-, -, e⟩ := clsEdge_cases P x s <;> rw [e] <;> cases x <;>
    exact ⟨rfl, rfl, rfl, rfl, rfl, rfl, fun y => by cases y <;> exact ⟨rfl, rfl, rfl, rfl⟩⟩

theorem clsTo_frame (P : Config.Params) (x : Button) (s : State clockW rawW) : SameFrame s (clsTo P x s) := by
  obtain ⟨-, e⟩ | ⟨-, e⟩ := clsTo_cases P x s <;> rw [e] <;> cases x <;>
    exact ⟨rfl, rfl, rfl, rfl, rfl, rfl, fun y => by cases y <;> exact ⟨rfl, rfl, rfl, rfl⟩⟩

theorem stageAction_frame (P : Config.Params) (s : State clockW rawW) : SameFrame s (stageAction P s) := by
  obtain e | ⟨-, e⟩ | ⟨x, -, e⟩ | ⟨x, -, e⟩ := stageAction_cases P s <;> rw [e]
  · exact SameFrame.refl s
  · exact analogCheck_frame P s
  · exact clsEdge_frame P x s
  · exact clsTo_frame P x s

/-- RunLoop leaves the same things alone. -/
theorem runLoop_frame {t : State clockW rawW} (hu : s.stage ≠ .unused) (h : runLoop P s = .next t) : SameFrame s t :=
  (runLoop_keeps P (SameFrame s) (fun u hu _ _ => hu.trans (stageAction_frame P u)) s t hu
    (SameFrame.refl s) h).1

/-- What a stage action may output (R170, R171): nothing; one conversion start, and then it waits for it; or one
line of the grammar, and then it waits for that. -/
theorem stageAction_output (P : Config.Params) (s : State clockW rawW) :
    ((stageAction P s).trace = s.trace ∧ (stageAction P s).txBusy = s.txBusy) ∨
    ((stageAction P s).stage = .adcWait ∧
      (stageAction P s).trace = s.trace ++ [.adcStart P.adcChannel]) ∨
    (∃ bytes, GrammarLine rawW bytes ∧ (stageAction P s).txBusy = true ∧
      (stageAction P s).trace = s.trace ++ [.txLine bytes]) := by
  obtain e | ⟨-, e⟩ | ⟨x, -, e⟩ | ⟨x, -, e⟩ := stageAction_cases P s <;> rw [e]
  · exact .inl ⟨rfl, rfl⟩
  · obtain ⟨-, e⟩ | ⟨-, e⟩ := analogCheck_cases P s <;> rw [e]
    · exact .inr (.inl ⟨rfl, rfl⟩)
    · exact .inl ⟨rfl, rfl⟩
  · obtain ⟨-, e⟩ | ⟨-, -, e⟩ | ⟨-, -, e⟩ := clsEdge_cases P x s <;> rw [e]
    · exact .inl ⟨rfl, rfl⟩
    · exact .inr (.inr ⟨_, .double x, rfl, by simp⟩)
    · exact .inl (by simp)
  · obtain ⟨-, e⟩ | ⟨-, e⟩ := clsTo_cases P x s <;> rw [e]
    · exact .inr (.inr ⟨_, .timeout x, rfl, by simp⟩)
    · exact .inl ⟨rfl, rfl⟩

end Sys2Proof.Machine
end

