-- ==== Sys2Proof/Tests/Slice0.lean ====
section
/-! SUPPORT. The model's own tests: the well-formedness smoke test, words written out from the encoding of
30_encoding.md, one-step vectors of 95_test_vectors.md, and for each statement with hypotheses a state that meets
them. -/

namespace Sys2Proof.Tests

open Sys2Proof Sys2Proof.Machine

/-! ## Well-formedness (R83, R84; words of 95_test_vectors.md L2.1) -/

theorem test_wf_accepts : wordWellFormed 0x03E80005#32 = true ∧ wordWellFormed 0x00000006#32 = true := by decide
theorem test_wf_refuses_opcode : wordWellFormed 0x00000000#32 = false ∧ wordWellFormed 0x00000007#32 = false ∧
    wordWellFormed 0x0000000F#32 = false := by decide
theorem test_wf_refuses_reserved_bits : wordWellFormed 0x00000010#32 = false ∧
    wordWellFormed 0x00000015#32 = false := by decide
theorem test_wf_refuses_payload : wordWellFormed 0x00010001#32 = false ∧
    wordWellFormed 0x00010006#32 = false := by decide

/-! ## Words bit by bit: payload, reserved, op (R80, R84) -/

theorem test_decode_tick : decode 0b0000000000000000_000000000000_0001#32 = .event .tick := by decide
theorem test_decode_edgeA : decode 0b0000000000000000_000000000000_0010#32 = .event .edgeA := by decide
theorem test_decode_edgeB : decode 0b0000000000000000_000000000000_0011#32 = .event .edgeB := by decide
theorem test_decode_iter : decode 0b0000000000000000_000000000000_0100#32 = .event .iter := by decide
theorem test_decode_adcDone : decode 0b0000001111101000_000000000000_0101#32 = .event (.adcDone 1000) := by decide
theorem test_decode_txDone : decode 0b0000000000000000_000000000000_0110#32 = .event .txDone := by decide
theorem test_decode_refuses_by_name : decode 0x00000007#32 = .reserved .opcode ∧
    decode 0x00000015#32 = .reserved .rsvBits ∧ decode 0x00010001#32 = .reserved .payload := by decide
theorem test_encode_words : encode (.adcDone 65535) = 0xFFFF0005#32 ∧ encode .txDone = 0x00000006#32 := by decide
theorem test_decodeTableWord : decodeTableWord 32 0x041A0005 = some (.adcDone 1050) ∧
    decodeTableWord 32 0x00010006 = none := by decide

/-- R82 at RAW_W = 20 (log entry 20): the payload is w[31:12] and the reserved field w[11:4]; a result above 65535. -/
theorem test_decodeAt_twenty :
    decodeAt 20 0b00010001000101110000_00000000_0101#32 = .event (.adcDone 70000) ∧
    decodeAt 20 0x00000015#32 = .reserved .rsvBits ∧ decodeAt 20 0x00001006#32 = .reserved .payload ∧
    decodeAt 20 0x00000006#32 = .event .txDone ∧ encodeAt 20 (.adcDone 70000) = 0x11170005#32 := by decide

/-- At RAW_W = 8 a payload that no result has is reserved, and at RAW_W = 29 every ADC_DONE (log entry 20). -/
theorem test_decodeAt_no_result : decodeAt 8 0x00FF0005#32 = .event (.adcDone 255) ∧
    decodeAt 8 0x01000005#32 = .reserved .rawRange ∧ decodeAt 29 0x00000005#32 = .reserved .rawRange ∧
    decodeAt 29 0x00000001#32 = .event .tick := by decide

/-! ## One step of each event (95_test_vectors.md) -/

/-- `ResetState` with a given Clock. -/
def atClock (c : TimeStamp) : State := { State.reset with clock := c }

/-- The state that an event leads to, where there is one. -/
def after (i : Instr) (s : State) : Option State :=
  match exec i s with
  | .next t => some t
  | .fault _ => none
  | .refused _ => none

/-- L1-1: Clock wraps to 0, with its TickAck. -/
theorem test_tick_wraps :
    after .tick (atClock 0xFFFFFFFF) = some { atClock 0 with trace := [.tickAck] } := by decide

/-- L2.2, row 1. -/
theorem test_tick_in_wait : after .tick { State.reset with stage := .adcWait } =
    some { State.reset with clock := 1, stage := .adcWait, trace := [.tickAck] } := by decide

/-- L2.3, row 2. -/
theorem test_edgeA_accepted : after .edgeA (atClock 51) = some { atClock 51 with
    btnA := { ButtonRegs.reset with lastRecordedTime := 51, pressTime := 51, pressed := true }
    trace := [.edgeAck .btnA] } := by decide

/-- L2.3, row 1. -/
theorem test_edgeA_bounce : after .edgeA (atClock 50) = some { atClock 50 with trace := [.edgeAck .btnA] } := by
  decide

/-- L2.3, row 3. -/
theorem test_edgeB_bounce :
    after .edgeB { atClock 1000 with btnB := { ButtonRegs.reset with lastRecordedTime := 960 } } =
      some { atClock 1000 with
        btnB := { ButtonRegs.reset with lastRecordedTime := 960 }, trace := [.edgeAck .btnB] } := by decide

/-- L2.3, the modular gap of row 6, on B. -/
theorem test_edgeB_gap_across_wrap :
    (after .edgeB { atClock 0x40 with btnB := { ButtonRegs.reset with lastRecordedTime := 0xFFFFFFF0 } }).map
      (fun t => t.btnB) =
      some { ButtonRegs.reset with lastRecordedTime := 0x40, pressTime := 0x40, pressed := true } := by decide

/-- The start of L2.4, row 5. -/
def doubleStart : State :=
  { atClock 400 with
    btnA := { ButtonRegs.reset with pressed := true, pressTime := 400, pendingClickTime := 100 }
    lastSampleTime := 350 }

/-- The end of L2.4, row 5. -/
def doubleEnd : State :=
  { atClock 400 with
    btnA := { ButtonRegs.reset with pressTime := 400, edgeTime := 400 }
    now := 400, lastSampleTime := 350, stage := .clsATo, txBusy := true
    trace := [.txLine [0x70, 0x72, 0x65, 0x76, 0x69, 0x6F, 0x75, 0x73, 0x0A, 0x0D]] }

/-- L2.4, row 5. -/
theorem test_iter_double_click : after .iter doubleStart = some doubleEnd := by decide

/-- L2.4, row 4. -/
theorem test_iter_sample_due : exec .iter (atClock 100) = .next { atClock 100 with
    now := 100, lastSampleTime := 100, stage := .adcWait
    trace := [.adcStart Config.adcChannel] } := by rfl

/-- L2.4, row 6. -/
theorem test_txDone_ends_iteration : after .txDone doubleEnd =
    some { doubleEnd with stage := .idle, txBusy := false } := by decide

/-- L2.7, row 1 of the second table. -/
theorem test_txDone_ignored : after .txDone State.reset = some State.reset := by decide

/-- A wait with a value sent before. -/
def waiting (valid : Bool) (lsv : Raw) : State :=
  { State.reset with stage := .adcWait, lastSentValid := valid, lastSentValue := lsv }

/-- L2.5, row 8: no clamp. -/
theorem test_adcDone_no_clamp : (after (.adcDone 5050) (waiting true 100)).map (fun t => (t.trace, t.lastSentValue)) =
    some ([.txLine [0x31, 0x30, 0x31, 0x0A, 0x0D]], 101) := by decide

/-- L2.5, row 4: suppressed. -/
theorem test_adcDone_suppressed : after (.adcDone 1049) (waiting true 20) =
    some { State.reset with lastSentValid := true, lastSentValue := 20 } := by decide

/-! ## Steps, text and records -/

/-- A reserved word is refused by name (R85). -/
theorem test_step_refuses_reserved :
    step { State.reset with inputs := [.offer 0x00010001#32] } =
      .refused (.reservedWord 0x00010001#32 .payload) := by rfl

/-- The fetch word from reset: an event runs, a reserved word does not. -/
theorem test_withFetchWord_tick : step (State.reset.withFetchWord 32 1) =
    .next { State.reset with clock := 1, trace := [.tickAck] } := by rfl

/-- R89's spellings. -/
theorem test_record : record (.txLine (valueLine (20 : Raw))) =
      ['T', 'x', 'L', 'i', 'n', 'e', '(', '"', '2', '0', '\\', 'n', '\\', 'r', '"', ')'] ∧
    record (.edgeAck .btnA) = ['E', 'd', 'g', 'e', 'A', 'c', 'k', '(', 'A', ')'] := by decide

/-- A line of L1-4's trace, with its comment (R87). -/
theorem test_readLine : readLine ['A', 'D', 'C', '_', 'D', 'O', 'N', 'E', ' ', '1', '0', '0', '0', ' ', ';', 'x'] =
      some (.event (.adcDone 1000)) ∧
    readLine ['A', 'D', 'C', '_', 'D', 'O', 'N', 'E', ' ', '6', '5', '5', '3', '6'] = none := by decide

/-! ## Witnesses: the hypotheses of each statement can be met -/

/-- A busy loop offered an ITER, which is held, and then a TICK. -/
def heldThenTick : State :=
  { State.reset with stage := .adcWait, inputs := [.offer 0x00000004#32, .offer 0x00000001#32] }

/-- The reserved offer `w`, from reset. -/
def offered (w : EventWord) : State := { State.reset with inputs := [.offer w] }

theorem test_EncodeOfDecode_hyps : decode 0xFFFF0005#32 = .event (.adcDone 65535) := by decide

theorem test_WordsThatSpellEvents_both : (∃ i, decode 0x00000006#32 = .event i) ∧
    ¬ ∃ i, decode 0x00010006#32 = .event i := by
  constructor
  · exact ⟨.txDone, by decide⟩
  · rintro ⟨i, h⟩
    have : decode 0x00010006#32 = .reserved .payload := by decide
    rw [this] at h
    cases h

/-- Each clause of the disjunction, and the ops where it begins and ends. -/
theorem test_ReservedWordsRefused_hyps : State.reset.rst = false ∧ State.reset.stage ≠ .unused ∧
    (offered 0x00000015#32).inputs = .offer 0x00000015#32 :: [] ∧
    (0x00000015#32).extractLsb' 4 12 ≠ 0 ∧
    ((0x00010006#32).extractLsb' 0 4 ≠ 5 ∧ (0x00010006#32).extractLsb' 16 16 ≠ 0) ∧
    (0x00000000#32).extractLsb' 0 4 = 0 ∧ 7 ≤ ((0x00000007#32).extractLsb' 0 4).toNat := by decide

theorem test_StageEncoding_hyps : State.reset.stage ≠ .unused ∧
    after .tick State.reset = some { State.reset with clock := 1, trace := [.tickAck] } := by decide

theorem test_StepRunsDecodedEvent_hyps : heldThenTick.rst = false ∧ heldThenTick.stage ≠ .unused ∧
    heldThenTick.inputs = [.offer 0x00000004#32] ++ .offer 0x00000001#32 :: [] ∧
    (∀ x ∈ [HostInput.offer 0x00000004#32], inputAccepted heldThenTick x = false) ∧
    decode 0x00000001#32 = .event .tick ∧ accepts heldThenTick .tick = true := by decide

/-- A blocked loop with nothing but an ITER offered. -/
def heldIter : State := { State.reset with txBusy := true, inputs := [.offer 0x00000004#32] }

theorem test_StepRestsWithoutAcceptableInput_hyps : heldIter.stage ≠ .unused ∧
    (∀ x ∈ heldIter.inputs, inputAccepted heldIter x = false) := by decide

theorem test_FetchWordRuns_hyps : State.reset.stage ≠ .unused ∧ accepts State.reset .iter = true ∧
    heldIter.stage ≠ .unused ∧ accepts heldIter .iter = false := by decide

/-- Every clause of AcceptanceConditions: held and accepted ITER, the two waits absent, and a held ITER before a
TICK. -/
theorem test_AcceptanceConditions_hyps : accepts heldIter .iter = false ∧ heldIter.stage ≠ .unused ∧
    heldIter.inputs = [.offer (encode .iter)] ∧ State.reset.stage ≠ .adcWait ∧ State.reset.txBusy = false ∧
    heldThenTick.rst = false ∧ heldThenTick.stage ≠ .unused ∧ accepts heldThenTick .iter = false ∧
    heldThenTick.inputs = .offer (encode .iter) :: .offer (encode .tick) :: [] := by decide

/-- Stage 7, reached by no run. -/
def unusedStage (busy : Bool) : State :=
  { State.reset with stage := .unused, txBusy := busy, inputs := [.offer 0x00000001#32] }

/-- Nothing but a TICK offered; and a release of `rst` that resets nothing, since it was not asserted. -/
theorem test_UnusedStageRefused_hyps : (unusedStage false).stage = .unused ∧
    (∀ level, .rst level ∈ (unusedStage false).inputs → level = false ∧ (unusedStage false).rst = false) ∧
    (∀ level, .rst level ∈ ({ unusedStage false with inputs := [.rst false] } : State).inputs →
      level = false ∧ (unusedStage false).rst = false) ∧
    (unusedStage true).stage = .unused ∧ (unusedStage true).txBusy = true := by decide

/-- R223 and R240 at stage 7: a release that resets nothing is refused; an assertion resets. -/
theorem test_unused_stage_and_rst :
    step { unusedStage false with inputs := [.rst false] } = .refused .unusedStage ∧
    step { unusedStage false with inputs := [.rst true] } = .next { State.reset with rst := true } :=
  ⟨rfl, rfl⟩

/-- The reset line held low, then released; and offers that wait for its release. -/
theorem test_ResetInput_hyps :
    ({ State.reset with inputs := [.rst true] } : State).inputs = .rst true :: [] ∧
    ({ State.reset with rst := true, inputs := [.offer 0x00000001#32] } : State).rst = true ∧
    (∀ x ∈ [HostInput.offer 0x00000001#32], ∃ w, x = .offer w) ∧
    ({ State.reset with rst := true, inputs := [.rst false] } : State).inputs = .rst false :: [] := by
  refine ⟨rfl, rfl, ?_, rfl⟩
  simp

theorem test_ResetAbandonsWaits_hyps : (waiting false 0).stage = .adcWait ∧ doubleEnd.txBusy = true := by decide

theorem test_AcceptedEdgesFarApart_hyps : ∃ t, exec .edgeA (atClock 51) = .next t ∧
    t.btnA.lastRecordedTime ≠ (atClock 51).btnA.lastRecordedTime := ⟨_, rfl, by decide⟩

theorem test_StartupEdgesDiscarded_hyps : (atClock 50).clock.toNat ≤ 50 ∧
    (atClock 50).btnA.lastRecordedTime = 0 ∧ (atClock 50).btnB.lastRecordedTime = 0 := by decide

/-- A free loop at Clock 1000 that is to sample in 1 ms, with these button registers. -/
def noSample (a b : ButtonRegs) : State :=
  { atClock 1000 with lastSampleTime := 901, btnA := a, btnB := b }

/-- A button with an edge at `t`, and a click pending since `p`. -/
def pressedAt (t p : TimeStamp) : ButtonRegs :=
  { ButtonRegs.reset with
    lastRecordedTime := t, pressTime := t, pressed := true, pendingClickTime := p }

/-- A button with no edge, and a click pending since `p`. -/
def pendingSince (p : TimeStamp) : ButtonRegs := { ButtonRegs.reset with pendingClickTime := p }

theorem test_IterHeldWhileBusy_hyps : heldIter.txBusy = true ∧ heldThenTick.stage ≠ .idle ∧
    heldIter.stage ≠ .unused ∧ heldIter.inputs = [.offer (encode .iter)] := by decide

/-- The boundary: 100 ms since the last sample, and 99. -/
theorem test_IterStartsConversion_hyps : (atClock 100).stage = .idle ∧ (atClock 100).txBusy = false ∧
    100 ≤ ((atClock 100).clock - (atClock 100).lastSampleTime).toNat ∧ (atClock 99).stage = .idle ∧
    (atClock 99).txBusy = false ∧ ((atClock 99).clock - (atClock 99).lastSampleTime).toNat < 100 := by decide

/-- The boundaries: 99 ms since the last sample, one click pending for exactly 500 ms, the other none. -/
theorem test_QuietIterationSendsNothing_hyps :
    let s := noSample (pendingSince 500) (pendingSince 0)
    s.stage = .idle ∧ s.txBusy = false ∧ (s.clock - s.lastSampleTime).toNat < 100 ∧
    s.btnA.pressed = false ∧ s.btnB.pressed = false ∧
    (s.clock - s.btnA.pendingClickTime).toNat ≤ 500 ∧ s.btnB.pendingClickTime = 0 := by decide

/-- The boundary: a gap of 499 ms, for A, and for B beside a click of A pending for exactly 500 ms. -/
theorem test_DoubleClickSendsItsLine_hyps :
    let s := noSample (pressedAt 999 500) (pendingSince 0)
    let u := noSample (pendingSince 500) (pressedAt 999 500)
    s.stage = .idle ∧ s.txBusy = false ∧ (s.clock - s.lastSampleTime).toNat < 100 ∧
    s.btnA.pressed = true ∧ s.btnA.pendingClickTime ≠ 0 ∧
    (s.btnA.pressTime - s.btnA.pendingClickTime).toNat < 500 ∧
    u.stage = .idle ∧ u.txBusy = false ∧ (u.clock - u.lastSampleTime).toNat < 100 ∧
    u.btnA.pressed = false ∧ (u.clock - u.btnA.pendingClickTime).toNat ≤ 500 ∧ u.btnB.pressed = true ∧
    u.btnB.pendingClickTime ≠ 0 ∧ (u.btnB.pressTime - u.btnB.pendingClickTime).toNat < 500 := by decide

/-- The boundary: pending for 501 ms, for A, and for B beside a click of A pending for exactly 500 ms. -/
theorem test_TimeoutSendsItsLine_hyps :
    let s := noSample (pendingSince 499) (pendingSince 0)
    let u := noSample (pendingSince 500) (pendingSince 499)
    s.stage = .idle ∧ s.txBusy = false ∧ (s.clock - s.lastSampleTime).toNat < 100 ∧
    s.btnA.pressed = false ∧ s.btnA.pendingClickTime ≠ 0 ∧
    500 < (s.clock - s.btnA.pendingClickTime).toNat ∧
    u.stage = .idle ∧ u.txBusy = false ∧ (u.clock - u.lastSampleTime).toNat < 100 ∧
    u.btnA.pressed = false ∧ (u.clock - u.btnA.pendingClickTime).toNat ≤ 500 ∧ u.btnB.pressed = false ∧
    u.btnB.pendingClickTime ≠ 0 ∧ 500 < (u.clock - u.btnB.pendingClickTime).toNat := by decide

/-- The boundaries: no click pending, and one exactly 500 ms before the edge; an edge exactly 500 ms old; the other
button with a click pending for exactly 500 ms, and with none; for A and for B. -/
theorem test_EdgeStartsOrRestartsWindow_hyps :
    let s := noSample (pressedAt 1000 500) (pendingSince 500)
    let u := noSample (pendingSince 0) (pressedAt 500 0)
    s.stage = .idle ∧ s.txBusy = false ∧ (s.clock - s.lastSampleTime).toNat < 100 ∧
    s.btnA.pressed = true ∧ 500 ≤ (s.btnA.pressTime - s.btnA.pendingClickTime).toNat ∧
    (s.clock - s.btnA.pressTime).toNat ≤ 500 ∧ s.btnB.pressed = false ∧
    (s.clock - s.btnB.pendingClickTime).toNat ≤ 500 ∧
    u.stage = .idle ∧ u.txBusy = false ∧ (u.clock - u.lastSampleTime).toNat < 100 ∧
    u.btnB.pressed = true ∧ u.btnB.pendingClickTime = 0 ∧ (u.clock - u.btnB.pressTime).toNat ≤ 500 ∧
    u.btnA.pressed = false ∧ u.btnA.pendingClickTime = 0 := by decide

/-- The corner of R135: an edge at time stamp 0. -/
theorem test_EdgeStartsOrRestartsWindow_at_zero :
    let s := noSample (pressedAt 0 0) (pendingSince 0)
    s.btnA.pressed = true ∧ s.btnA.pendingClickTime = 0 ∧ s.btnA.pressTime = 0 := by decide

/-- The boundary: an edge 501 ms old, on A, and on B beside a click of A pending for exactly 500 ms. -/
theorem test_LateClickTimesOutAtOnce_hyps :
    let s := noSample (pressedAt 499 0) (pendingSince 0)
    s.stage = .idle ∧ s.txBusy = false ∧ (s.clock - s.lastSampleTime).toNat < 100 ∧
    s.btnA.pressed = true ∧ s.btnA.pendingClickTime = 0 ∧ s.btnA.pressTime ≠ 0 ∧
    500 < (s.clock - s.btnA.pressTime).toNat ∧
    let u := noSample (pendingSince 500) (pressedAt 499 0)
    u.stage = .idle ∧ u.txBusy = false ∧ (u.clock - u.lastSampleTime).toNat < 100 ∧
    u.btnA.pressed = false ∧ (u.clock - u.btnA.pendingClickTime).toNat ≤ 500 ∧
    u.btnB.pressed = true ∧ u.btnB.pendingClickTime = 0 ∧ u.btnB.pressTime ≠ 0 ∧
    500 < (u.clock - u.btnB.pressTime).toNat := by decide

/-- A state at `now` whose button B holds an edge seen at `t` and a click pending since `p`. -/
def seenB (now t p : TimeStamp) : State :=
  { State.reset with
    now := now, btnB := { ButtonRegs.reset with edgeSeen := true, edgeTime := t, pendingClickTime := p } }

/-- Each clause at its boundary: no edge; gaps of 499 and 500 ms, and no click; a click 501 and 500 ms old. -/
theorem test_ClassifierActions_hyps :
    (btn State.reset .btnB).edgeSeen = false ∧
    (btn (seenB 999 999 500) .btnB).edgeSeen = true ∧ (btn (seenB 999 999 500) .btnB).pendingClickTime ≠ 0 ∧
    ((btn (seenB 999 999 500) .btnB).edgeTime - (btn (seenB 999 999 500) .btnB).pendingClickTime).toNat < 500 ∧
    (btn (seenB 7 7 0) .btnB).edgeSeen = true ∧ (btn (seenB 7 7 0) .btnB).pendingClickTime = 0 ∧
    500 ≤ ((btn (seenB 1000 1000 500) .btnB).edgeTime -
      (btn (seenB 1000 1000 500) .btnB).pendingClickTime).toNat ∧
    500 < ((seenB 1001 0 500).now - (btn (seenB 1001 0 500) .btnB).pendingClickTime).toNat ∧
    ((seenB 1000 0 500).now - (btn (seenB 1000 0 500) .btnB).pendingClickTime).toNat ≤ 500 := by decide

/-- A first value, and a changed one at the boundary of a division step. -/
theorem test_AdcDoneTransmits_hyps : (waiting false 0).stage = .adcWait ∧ (waiting false 0).lastSentValid = false ∧
    (waiting true 20).stage = .adcWait ∧ (1050#16).toNat / 50 ≠ (waiting true 20).lastSentValue.toNat := by decide

theorem test_AdcDoneSuppressesUnchanged_hyps :
    let s := waiting true 20
    s.stage = .adcWait ∧ s.lastSentValid = true ∧ (1049#16).toNat / 50 = s.lastSentValue.toNat ∧
    s.txBusy = false ∧ s.btnA.edgeSeen = false ∧ s.btnB.edgeSeen = false ∧
    s.btnA.pendingClickTime = 0 ∧ s.btnB.pendingClickTime = 0 := by decide

theorem test_AdcDoneIgnoredOutsideWait_hyps : State.reset.stage ≠ .adcWait ∧ doubleEnd.stage ≠ .adcWait := by decide

theorem test_LastSentIsLastDelivered_hyps : (waiting false 0).stage = .adcWait ∧
    (∀ raw, (Instr.tick : Instr) = .adcDone raw → (waiting false 0).stage ≠ .adcWait) ∧
    ∃ t, exec .tick (waiting false 0) = .next t := by
  refine ⟨by decide, fun raw h => ?_, _, rfl⟩
  cases h

/-- No line, a line within an iteration, and the last line of one. -/
theorem test_TxDoneResumesLoop_hyps : State.reset.txBusy = false ∧ doubleEnd.txBusy = true ∧
    heldIter.txBusy = true ∧ heldIter.stage = .idle := by decide

/-- A line outstanding at each of the four stages. -/
def lineAt (v : Stage) : State := { State.reset with txBusy := true, stage := v }

theorem test_TxDoneEndsQuietIteration_hyps :
    ∀ v ∈ [Stage.clsAEdge, .clsATo, .clsBEdge, .clsBTo],
      (lineAt v).txBusy = true ∧ (lineAt v).stage ∈ [Stage.clsAEdge, .clsATo, .clsBEdge, .clsBTo] ∧
      (lineAt v).btnA.edgeSeen = false ∧ (lineAt v).btnB.edgeSeen = false ∧
      (lineAt v).btnA.pendingClickTime = 0 ∧ (lineAt v).btnB.pendingClickTime = 0 := by decide

theorem test_EveryEventCompletes_hyps : doubleStart.stage ≠ .unused ∧ heldIter.stage ≠ .unused := by decide

theorem test_RunLoopIsWhileLoop_hyps : (setStage .analog doubleStart).stage ≠ .unused ∧
    (setStage .analog doubleStart).txBusy = false := by decide

theorem test_StageOrder_hyps : doubleStart.txBusy = false := by decide

/-- Two states that differ in button B and in the sampler, for the classifier of A. -/
theorem test_ClassifiersIndependent_hyps :
    let s := noSample (pressedAt 999 500) (pendingSince 0)
    let u := { noSample (pressedAt 999 500) (pressedAt 7 3) with lastSampleTime := 0 }
    Button.btnB ≠ Button.btnA ∧ u.now = s.now ∧ btn u .btnA = btn s .btnA ∧ u.stage = s.stage ∧
      u.txBusy = s.txBusy ∧ u.trace = s.trace ∧ u ≠ s := by decide

theorem test_OnlyAdcDoneLeavesWait_hyps : heldThenTick.stage = .adcWait ∧
    (∀ raw, (Instr.txDone : Instr) ≠ .adcDone raw) ∧ ∃ t, exec .txDone heldThenTick = .next t :=
  ⟨by decide, (fun _ h => by cases h), _, rfl⟩

theorem test_OnlyTxDoneEndsTransmit_hyps : doubleEnd.txBusy = true ∧ doubleEnd.stage ≠ .adcWait ∧
    (Instr.edgeB : Instr) ≠ .txDone ∧ ∃ t, exec .edgeB doubleEnd = .next t :=
  ⟨by decide, by decide, by decide, _, rfl⟩

/-- An iteration that starts, and one that goes on. -/
theorem test_AtMostThreeLinesPerIteration_hyps : (∃ t, exec .iter (atClock 100) = .next t ∧ linesLeft t = 3) ∧
    ∃ t, exec .txDone doubleEnd = .next t := ⟨⟨_, rfl, by decide⟩, _, rfl⟩

theorem test_DecimalText_hyps : (0x30#8 : Byte) ∈ dec (0 : Raw) ∧ (1310#16 : Raw) ≠ 0 := by decide

/-- A state whose trace holds a line of the grammar, and whose next step sends another. -/
def spoke : State :=
  { noSample (pendingSince 499) (pendingSince 0) with
    trace := [.txLine (doubleLine .btnB)], inputs := [.offer 0x00000004#32] }

theorem test_StepKeepsLineGrammar_hyps : LinesInGrammar spoke ∧
    ∃ t, step spoke = .next t ∧ t.trace = spoke.trace ++ [.txLine (timeoutLine .btnA)] := by
  refine ⟨fun bytes h => ?_, _, rfl, by decide⟩
  have : bytes = doubleLine .btnB := by simpa [spoke] using h
  exact this ▸ .double .btnB

/-- Each kind of event; an ITER that sends a line, one that starts a conversion, and a TX_DONE that does neither. -/
theorem test_OneOutputPerEvent_hyps : (∃ t, exec .tick State.reset = .next t) ∧
    (∃ t, exec .edgeA State.reset = .next t) ∧ (∃ t, exec .edgeB State.reset = .next t) ∧
    contextOf .iter = .mainLoop ∧ contextOf .txDone = .mainLoop ∧ (∃ t, exec .iter doubleStart = .next t) ∧
    (∃ t, exec .iter (atClock 100) = .next t) ∧ ∃ t, exec .txDone doubleEnd = .next t :=
  ⟨⟨_, rfl⟩, ⟨_, rfl⟩, ⟨_, rfl⟩, rfl, rfl, ⟨_, rfl⟩, ⟨_, rfl⟩, _, rfl⟩

theorem test_WriterDiscipline_hyps : contextOf .iter = .mainLoop ∧ (∃ t, exec .iter doubleStart = .next t) ∧
    contextOf .edgeA = .interrupt ∧ ∃ t, exec .edgeA (atClock 51) = .next t :=
  ⟨rfl, ⟨_, rfl⟩, rfl, _, rfl⟩

theorem test_MainLoopFrame_hyps : contextOf .iter = .mainLoop ∧ loopIdle doubleStart = true ∧
    (∃ t, exec .iter doubleStart = .next t) ∧ contextOf .txDone = .mainLoop ∧ (Instr.txDone : Instr) ≠ .iter ∧
    (∀ raw, (Instr.txDone : Instr) ≠ .adcDone raw) ∧ doubleEnd.stage ≠ .analog ∧ ∃ t, exec .txDone doubleEnd = .next t :=
  ⟨rfl, by decide, ⟨_, rfl⟩, rfl, by decide, (fun _ h => by cases h), by decide, _, rfl⟩

/-- An edge that is accepted while a line is outstanding, and the line's completion. -/
theorem test_InterruptsCommuteWithCompletions_hyps : contextOf .edgeB = .interrupt ∧
    contextOf .txDone = .mainLoop ∧ (Instr.txDone : Instr) ≠ .iter ∧
    ∃ s1 t1, exec .edgeB doubleEnd = .next s1 ∧ exec .txDone s1 = .next t1 :=
  ⟨rfl, rfl, by decide, _, _, rfl, rfl⟩

/-- An idle loop with an unconsumed click and a pending one, offered a TICK. -/
def running : State :=
  { noSample (pressedAt 0x3E7 0x1F4) (pendingSince 0) with
    clock := 0x3E8, now := 0x3E0, lastSampleTime := 0x3DF
    inputs := [.offer 0x00000001#32] }

theorem test_StepKeepsPressIsGate_hyps : PressIsGate running ∧ ∃ t, step running = .next t := by
  refine ⟨by decide, ?_⟩
  exact ⟨_, rfl⟩

theorem test_StepKeepsLoopAtRest_hyps : LoopAtRest running ∧ LoopAtRest doubleEnd ∧ LoopAtRest heldThenTick ∧
    (∃ t, step running = .next t) ∧ ∃ t, step heldThenTick = .next t :=
  ⟨trivial, rfl, rfl, ⟨_, rfl⟩, _, rfl⟩

/-- A machine with an 8-bit Clock and 20-bit raw values, and a TICK to take. -/
def narrow : State 8 20 := { State.resetAt 8 20 with clock := 255, inputs := [.offer 0x00000001#32] }

/-- That machine, waiting for a result, offered one of 70000 mV (R82). -/
def narrowWaiting : State 8 20 := { State.resetAt 8 20 with stage := .adcWait, inputs := [.offer 0x11170005#32] }

/-- Other constants, and other widths. -/
theorem test_InvariantsKeptAtEveryParameter_hyps : PressIsGate running ∧ LoopAtRest running ∧
    (∃ t, execWith { hardware with debounceTime := 7 } .edgeA running = .next t) ∧
    PressIsGate narrow ∧ LoopAtRest narrow ∧ (∃ t, stepWith hardware narrow = .next t ∧ t.clock = 0) ∧
    PressIsGate narrowWaiting ∧ LoopAtRest narrowWaiting ∧
    ∃ t, stepWith hardware narrowWaiting = .next t ∧ t.lastSentValue = 1400 :=
  ⟨by decide, trivial, ⟨_, rfl⟩, by decide, trivial, ⟨_, rfl, by decide⟩, by decide, rfl, _, rfl, by decide⟩

/-- A RAW_W below 16, this hardware's, and the widest of a 32-bit word; and a word of one of them. -/
theorem test_HardwareParameters_hyps : 8 ≤ 28 ∧ 16 ≤ 28 ∧
    decodeAt 28 0xFFFFFFF5#32 = .event (.adcDone 268435455) := by decide

/-- Clock is 2 after two ticks. -/
def twoTicks : State :=
  { atClock 2 with trace := [.tickAck, .edgeAck .btnB, .tickAck], now := 1, inputs := [.offer 0x00000001#32] }

theorem test_StepKeepsClockCount_hyps : ClockCountsTicks twoTicks ∧ ∃ t, step twoTicks = .next t := by
  refine ⟨by decide, ?_⟩
  exact ⟨_, rfl⟩

theorem test_StepKeepsStampOrder_hyps : ClockCountsTicks twoTicks ∧ tickCount twoTicks.trace < 2 ^ 32 ∧
    StampsInOrder twoTicks ∧ ∃ t, step twoTicks = .next t := by
  refine ⟨by decide, by decide, by decide, ?_⟩
  exact ⟨_, rfl⟩

/-- A settled state; and one within an iteration that still has no click, in which a value is delivered. -/
theorem test_SettledSendsNoClickLine_hyps : Settled State.reset ∧ NoClick (waiting false 0) ∧
    (Instr.adcDone 1000 : Instr) ≠ .edgeA ∧ (Instr.adcDone 1000 : Instr) ≠ .edgeB ∧
    ∃ t, exec (.adcDone 1000) (waiting false 0) = .next t :=
  ⟨by decide, by decide, by decide, by decide, _, rfl⟩

theorem test_AdvanceToReaches_hyps : (atClock 0xFFFFFF9C).rst = false ∧ (atClock 0xFFFFFF9C).stage ≠ .unused := by
  decide

/-- A busy loop; `rst` asserted before a line of one TICK; and stage 7. -/
theorem test_PlayStaysAtHeldLine_hyps : heldThenTick.stage ≠ .idle ∧ heldThenTick.stage ≠ .unused ∧
    heldIter.txBusy = true ∧ heldIter.stage ≠ .unused ∧
    ({ State.reset with rst := true } : State).rst = true ∧ State.reset.stage ≠ .unused ∧
    expand 5 (.ticks 1) ≠ [] ∧ (unusedStage false).stage = .unused := by decide

/-- R223 in the playing of a trace: stage 7 is refused before a TICK and before no line at all. -/
theorem test_play_refuses_unused_stage :
    play [.event .tick] (unusedStage false) = .refused .unusedStage ∧
    play [] (unusedStage false) = .refused .unusedStage := by decide

/-! ## Launch premises (R262) -/

/-- The values that program P4 lists (95_test_vectors.md). -/
def p4Values : List RegValue :=
  [.clock 0xFFFFFF9C, .lastSampleTime 0xFFFFFF9C, .lastSentValid true, .lastSentValue 20,
    .lastRecordedTime .btnA 0xFFFFFF00, .pressTime .btnA 0xFFFFFF00]

theorem test_CleanValues_p4 : CleanValues p4Values (listedState p4Values) ∧
    (listedState p4Values).btnB = ButtonRegs.reset := by decide

/-- One TICK from reset leads to a clean entry with Clock 1, its trace emptied. -/
theorem test_CleanEntry_after_tick : CleanEntry hardware [.clock 1] (atClock 1) :=
  ⟨by decide, State.reset, { atClock 1 with trace := [.tickAck] }, by decide,
    .event .tick (by decide) rfl (.refl _), by decide⟩

end Sys2Proof.Tests
end

/-! The word of an event at every RAW_W: what a word must hold in its three fields to spell an event (R80 to R85). The
decoder answers an event exactly for such a word, the encoder builds one, and there is only one. -/

namespace Sys2Proof

variable {rawW : Nat}

/-- The op that names an event (R84). -/
def Instr.opcode : Instr rawW → Nat
  | .tick => 1
  | .edgeA => 2
  | .edgeB => 3
  | .iter => 4
  | .adcDone _ => 5
  | .txDone => 6

/-- The op fits its field of 4 bits (R80). -/
theorem Instr.opcode_lt (i : Instr rawW) : i.opcode < 16 := by
  cases i <;> simp [Instr.opcode]

/-- What the payload of an event's word holds: ADC_DONE's result, and zero for the others (R82, R83). -/
def Instr.payload : Instr rawW → Nat
  | .adcDone raw => raw.toNat
  | .tick | .edgeA | .edgeB | .iter | .txDone => 0

/-- The format has a word for the event: always, but for ADC_DONE above the widest payload (R82; log entry 20). -/
def Instr.HasWord : Instr rawW → Prop
  | .adcDone _ => rawW ≤ 28
  | .tick | .edgeA | .edgeB | .iter | .txDone => True

/-- Up to the widest payload every event has a word. -/
theorem Instr.hasWord_of_le (h : rawW ≤ 28) : ∀ i : Instr rawW, i.HasWord
  | .adcDone _ => h
  | .tick | .edgeA | .edgeB | .iter | .txDone => trivial

/-- The op and the payload of a word are those of an event that has a word (R80, R84). -/
structure NamesEvent (w : EventWord) (i : Instr rawW) : Prop where
  op : (opField w).toNat = i.opcode
  payload : (payloadField w rawW).toNat = i.payload
  hasWord : i.HasWord

/-- The word is the event's in all three fields (R80, R83, R84). -/
structure SpellsEvent (w : EventWord) (i : Instr rawW) : Prop extends NamesEvent w i where
  rsv : rsvField w rawW = 0

/-- The three fields are the whole word, at every RAW_W (R80). -/
theorem word_of_fieldsAt (w : EventWord) (rawW : Nat) :
    w.toNat = (payloadField w rawW).toNat * 2 ^ payloadLow rawW + (rsvField w rawW).toNat * 16 +
      (opField w).toNat := by
  obtain ⟨k, hk⟩ : ∃ k, payloadLow rawW = k + 4 :=
    ⟨payloadLow rawW - 4, by have := payloadLow_bounds rawW; omega⟩
  have hpow : 2 ^ (k + 4) = 16 * 2 ^ k := by ring
  rw [payloadFieldAt_toNat, rsvFieldAt_toNat, opField_toNat, hk, Nat.add_sub_cancel, hpow,
    ← Nat.div_div_eq_div_mul]
  have hhigh := Nat.div_add_mod (w.toNat / 16) (2 ^ k)
  have hlow := Nat.div_add_mod w.toNat 16
  linarith

/-- No two words spell one event (R83, R84). -/
theorem SpellsEvent.word_unique {w w' : EventWord} {i : Instr rawW} (h : SpellsEvent w i) (h' : SpellsEvent w' i) :
    w = w' := by
  apply BitVec.eq_of_toNat_eq
  rw [word_of_fieldsAt w rawW, word_of_fieldsAt w' rawW, h.op, h'.op, h.payload, h'.payload, h.rsv, h'.rsv]

/-- A word below 16 holds its op alone, at every RAW_W. -/
theorem fields_of_lt_sixteen {w : EventWord} (h : w.toNat < 16) :
    (opField w).toNat = w.toNat ∧ (payloadField w rawW).toNat = 0 ∧ rsvField w rawW = 0 := by
  have hlow : 2 ^ 4 ≤ 2 ^ payloadLow rawW := Nat.pow_le_pow_right (by decide) (payloadLow_bounds rawW).1
  refine ⟨?_, ?_, BitVec.eq_of_toNat_eq ?_⟩
  · rw [opField_toNat, Nat.mod_eq_of_lt h]
  · rw [payloadFieldAt_toNat, Nat.div_eq_of_lt (by omega)]
  · rw [rsvFieldAt_toNat, Nat.div_eq_of_lt h, Nat.zero_mod]
    rfl

/-- A word that is an op alone spells the event of that op, if the event has no operand (R83, R84). -/
theorem spellsEvent_of_opcode {w : EventWord} {i : Instr rawW} (hw : w.toNat = i.opcode) (hp : i.payload = 0)
    (hi : i.HasWord) : SpellsEvent w i := by
  obtain ⟨hop, hpay, hrsv⟩ := fields_of_lt_sixteen (rawW := rawW) (hw ▸ i.opcode_lt)
  exact ⟨⟨hop.trans hw, hpay.trans hp.symm, hi⟩, hrsv⟩

/-- The encoder's word spells the event, where the format has one (R82, R84). -/
theorem encodeAt_spellsEvent {i : Instr rawW} (h : i.HasWord) : SpellsEvent (encodeAt rawW i) i := by
  cases i with
  | adcDone raw =>
    obtain ⟨hop, hrsv, hpay⟩ := encodeAt_adcDone_fields h raw
    exact ⟨⟨congrArg BitVec.toNat hop, hpay, h⟩, hrsv⟩
  | tick | edgeA | edgeB | iter | txDone => exact spellsEvent_of_opcode rfl rfl h

/-- An event without operand is read exactly where the payload is zero (R83). -/
theorem withoutPayload_eq_event_iff {w : EventWord} {i j : Instr rawW} :
    withoutPayload w j = .event i ↔ (payloadField w rawW).toNat = 0 ∧ j = i := by
  have hzero : (payloadField w rawW).toNat = 0 ↔ payloadField w rawW = 0 := BitVec.toNat_inj (y := 0)
  rw [withoutPayload, hzero]
  split
  next hp => exact ⟨fun h => ⟨hp, by cases h; rfl⟩, fun h => congrArg Decoded.event h.2⟩
  next hp => exact ⟨nofun, fun h => absurd h.1 hp⟩

/-- ADC_DONE is read exactly where the payload is a result of RAW_W bits (R82). -/
theorem decodeAdcDone_eq_event_iff {w : EventWord} {i : Instr rawW} :
    decodeAdcDone rawW w = .event i ↔
      rawW ≤ 28 ∧ ∃ raw : Raw rawW, (payloadField w rawW).toNat = raw.toNat ∧ i = .adcDone raw := by
  have hraw : payloadIsRaw w rawW = true ↔ rawW ≤ 28 ∧ (payloadField w rawW).toNat < 2 ^ rawW := by
    simp only [payloadIsRaw, Bool.and_eq_true, decide_eq_true_eq]
    rfl
  unfold decodeAdcDone
  constructor
  · intro h
    split at h
    next hr =>
      obtain ⟨hle, hlt⟩ := hraw.mp hr
      cases h
      exact ⟨hle, _, by rw [BitVec.toNat_setWidth, Nat.mod_eq_of_lt hlt], rfl⟩
    next => cases h
  · rintro ⟨hle, raw, hpay, rfl⟩
    have hset : (payloadField w rawW).setWidth rawW = raw :=
      BitVec.eq_of_toNat_eq (by rw [BitVec.toNat_setWidth, hpay, Nat.mod_eq_of_lt raw.isLt])
    rw [if_pos (hraw.mpr ⟨hle, hpay ▸ raw.isLt⟩), hset]

/-- A well-placed op and its payload are read as an event exactly where they name it (R81, R84). -/
theorem decodeOp_eq_event_iff {w : EventWord} {i : Instr rawW} : decodeOp rawW w = .event i ↔ NamesEvent w i := by
  constructor
  · intro h
    unfold decodeOp at h
    split at h
    case h_5 hop =>
      obtain ⟨hle, raw, hpay, rfl⟩ := decodeAdcDone_eq_event_iff.mp h
      exact ⟨hop, hpay, hle⟩
    case h_7 => cases h
    all_goals
      next hop =>
      obtain ⟨hpay, rfl⟩ := withoutPayload_eq_event_iff.mp h
      exact ⟨hop, hpay, trivial⟩
  · rintro ⟨hop, hpay, hword⟩
    unfold decodeOp
    rw [hop]
    cases i with
    | adcDone raw => exact decodeAdcDone_eq_event_iff.mpr ⟨hword, raw, hpay, rfl⟩
    | tick | edgeA | edgeB | iter | txDone => exact withoutPayload_eq_event_iff.mpr ⟨hpay, rfl⟩

/-- The decoder answers an event exactly for a word that spells it (R80 to R85). -/
theorem decodeAt_eq_event_iff {w : EventWord} {i : Instr rawW} : decodeAt rawW w = .event i ↔ SpellsEvent w i := by
  unfold decodeAt
  split
  next hrsv => exact decodeOp_eq_event_iff.trans ⟨fun h => ⟨h, hrsv⟩, fun h => h.toNamesEvent⟩
  next hrsv => exact ⟨nofun, fun h => absurd h.rsv hrsv⟩

/-- Decoding the word of an event gives the event back, where the format has a word for it (R82, R84). -/
theorem decodeAt_encodeAt {i : Instr rawW} (h : i.HasWord) : decodeAt rawW (encodeAt rawW i) = .event i :=
  decodeAt_eq_event_iff.mpr (encodeAt_spellsEvent h)

/-- A word that decodes to an event is the encoder's (R83, R84). -/
theorem encodeAt_of_decodeAt {w : EventWord} {i : Instr rawW} (h : decodeAt rawW w = .event i) :
    encodeAt rawW i = w :=
  have hw := decodeAt_eq_event_iff.mp h
  (encodeAt_spellsEvent hw.hasWord).word_unique hw

end Sys2Proof

/-! The parameters, and the event that a step takes. -/

namespace Sys2Proof.Machine

/-- Settles O53: the constants are those of `hardware`, and the event words come from the characterisation of the words
that decode to an event. -/
theorem hardwareParameters : Obligations.HardwareParameters :=
  ⟨rfl, rfl, rfl, rfl, rfl, exec_eq_execWith, step_eq_stepWith,
    fun _ h => ⟨le_payloadBits h, fun i => decodeAt_encodeAt (i.hasWord_of_le h)⟩,
    fun _ _ _ => encodeAt_of_decodeAt⟩

variable {clockW rawW : Nat}

/-- The first offer that may be taken is fetched as the event it decodes to, and the inputs passed over stay (R18,
R86; log entry 1). -/
theorem fetch_first_offer {s : State clockW rawW} {held post : List HostInput} {w : EventWord} {i : Instr rawW}
    (hstage : s.stage ≠ .unused) (hin : s.inputs = held ++ .offer w :: post)
    (hheld : ∀ x ∈ held, inputAccepted s x = false) (hdec : decodeAt rawW w = .event i)
    (hacc : offerAccepted s i = true) : fetch s = .run i { s with inputs := held ++ post } := by
  have hw : inputAccepted s (.offer w) = true := by simp [inputAccepted, hdec, hacc]
  have hfirst : firstAccepted (inputAccepted s) s.inputs = some (.offer w, held ++ post) :=
    hin ▸ firstAccepted_skip _ _ post hw held hheld
  simp [fetch, hfirst, hstage, hdec]

/-- Settles O8: the step runs what it fetches, and it fetches the first offer that may be taken. -/
theorem stepRunsDecodedEvent : Obligations.StepRunsDecodedEvent := by
  intro s held post w i hrst hstage hin hheld hdec hacc
  have hoffer : offerAccepted s i = true := by simp [offerAccepted, hrst, hacc]
  rw [step, stepBy, fetch_first_offer hstage hin hheld hdec hoffer]

end Sys2Proof.Machine

/-! What one operation, one delivery and one run of the loop do to the registers of each context (R36): the facts about
the state that the invariants and the frames of the events cite. -/

namespace Sys2Proof.Machine

variable {clockW rawW : Nat}

/-! ### The interrupt events -/

/-- EDGE_b writes the buttons' registers and acknowledges the pin; all else stays (R110). -/
theorem edge_eq (P : Config.Params) (x : Button) (s : State clockW rawW) :
    edge P x s = { s with
      btnA := (edge P x s).btnA
      btnB := (edge P x s).btnB
      trace := s.trace ++ [.edgeAck x] } := by
  obtain ⟨-, e⟩ | ⟨-, e⟩ := edge_cases P x s <;> rw [e] <;> cases x <;> rfl

/-- After EDGE_b a button's registers are as before, or hold an edge accepted now (R110). -/
theorem btn_edge (P : Config.Params) (x y : Button) (s : State clockW rawW) :
    btn (edge P x s) y = btn s y ∨ btn (edge P x s) y = recordEdge s.clock (btn s y) := by
  obtain ⟨-, e⟩ | ⟨-, e⟩ := edge_cases P x s <;> rw [e]
  · by_cases hy : y = x
    · subst hy; exact .inr (btn_setBtn_same ..)
    · exact .inl (by rw [btn_setBtn_other _ _ _ _ hy, btn_emit])
  · exact .inl (btn_emit ..)

/-- The registers of the main-loop context are the same, and no `pressed` bit is cleared: what an interrupt event
keeps (R36). -/
structure KeepsMainLoopSide (s t : State clockW rawW) : Prop where
  now : t.now = s.now
  lastSampleTime : t.lastSampleTime = s.lastSampleTime
  lastSentValue : t.lastSentValue = s.lastSentValue
  lastSentValid : t.lastSentValid = s.lastSentValid
  stage : t.stage = s.stage
  txBusy : t.txBusy = s.txBusy
  pendingClickTime : ∀ x, (btn t x).pendingClickTime = (btn s x).pendingClickTime
  edgeSeen : ∀ x, (btn t x).edgeSeen = (btn s x).edgeSeen
  edgeTime : ∀ x, (btn t x).edgeTime = (btn s x).edgeTime
  pressed : ∀ x, (btn s x).pressed = true → (btn t x).pressed = true

theorem tick_keepsMainLoopSide (s : State clockW rawW) : KeepsMainLoopSide s (tick s) :=
  ⟨rfl, rfl, rfl, rfl, rfl, rfl, fun _ => rfl, fun _ => rfl, fun _ => rfl, fun _ h => h⟩

theorem edge_keepsMainLoopSide (P : Config.Params) (x : Button) (s : State clockW rawW) :
    KeepsMainLoopSide s (edge P x s) where
  now := by rw [edge_eq]
  lastSampleTime := by rw [edge_eq]
  lastSentValue := by rw [edge_eq]
  lastSentValid := by rw [edge_eq]
  stage := by rw [edge_eq]
  txBusy := by rw [edge_eq]
  pendingClickTime y := by obtain e | e := btn_edge P x y s <;> rw [e]; rfl
  edgeSeen y := by obtain e | e := btn_edge P x y s <;> rw [e]; rfl
  edgeTime y := by obtain e | e := btn_edge P x y s <;> rw [e]; rfl
  pressed y h := by obtain e | e := btn_edge P x y s <;> rw [e]; exacts [h, rfl]

/-! ### The main-loop events up to their loop -/

@[simp] theorem snapshotBtn_lastRecordedTime (r : ButtonRegs clockW) :
    (snapshotBtn r).lastRecordedTime = r.lastRecordedTime := by unfold snapshotBtn; split <;> rfl

@[simp] theorem snapshotBtn_pressTime (r : ButtonRegs clockW) : (snapshotBtn r).pressTime = r.pressTime := by
  unfold snapshotBtn; split <;> rfl

/-- The snapshot consumes the handoff flag (R190). -/
@[simp] theorem snapshotBtn_pressed_eq_false (r : ButtonRegs clockW) : (snapshotBtn r).pressed = false := by
  cases h : r.pressed
  · rw [snapshotBtn_released h, ← h]
  · rw [snapshotBtn_pressed h]

/-- The snapshot copies the press time of a pressed button, and only that (R190). -/
theorem snapshotBtn_edgeTime (r : ButtonRegs clockW) :
    (snapshotBtn r).edgeTime = if r.pressed then r.pressTime else r.edgeTime := by
  unfold snapshotBtn; split <;> rfl

@[simp] theorem btn_iterStart (s : State clockW rawW) (x : Button) : btn (iterStart s) x = snapshotBtn (btn s x) := by
  cases x <;> rfl

/-- The delivery of a result writes the last sent value, the stage, `tx_busy` and the trace; all else stays (R151). -/
theorem deliver_eq (P : Config.Params) (raw : Raw rawW) (s : State clockW rawW) :
    deliver P raw s = { s with
      lastSentValue := (deliver P raw s).lastSentValue
      lastSentValid := (deliver P raw s).lastSentValid
      stage := .clsAEdge
      txBusy := (deliver P raw s).txBusy
      trace := (deliver P raw s).trace } := by
  obtain ⟨-, e⟩ | ⟨-, e⟩ := deliver_cases P raw s <;> rw [e] <;> rfl

/-- The registers of the interrupt context and the inputs are the same, and no `pressed` bit is set: what a main-loop
event keeps (R36). -/
structure KeepsInterruptSide (s t : State clockW rawW) : Prop where
  clock : t.clock = s.clock
  rst : t.rst = s.rst
  inputs : t.inputs = s.inputs
  lastRecordedTime : ∀ x, (btn t x).lastRecordedTime = (btn s x).lastRecordedTime
  pressTime : ∀ x, (btn t x).pressTime = (btn s x).pressTime
  pressed : ∀ x, (btn t x).pressed = true → (btn s x).pressed = true

theorem KeepsInterruptSide.refl (s : State clockW rawW) : KeepsInterruptSide s s :=
  ⟨rfl, rfl, rfl, fun _ => rfl, fun _ => rfl, fun _ h => h⟩

theorem KeepsInterruptSide.trans {s t u : State clockW rawW} (h : KeepsInterruptSide s t) (k : KeepsInterruptSide t u) :
    KeepsInterruptSide s u where
  clock := k.clock.trans h.clock
  rst := k.rst.trans h.rst
  inputs := k.inputs.trans h.inputs
  lastRecordedTime x := (k.lastRecordedTime x).trans (h.lastRecordedTime x)
  pressTime x := (k.pressTime x).trans (h.pressTime x)
  pressed x := h.pressed x ∘ k.pressed x

theorem SameFrame.keepsInterruptSide {s t : State clockW rawW} (h : SameFrame s t) : KeepsInterruptSide s t := by
  obtain ⟨hclock, -, -, -, hrst, hinputs, hbtn⟩ := h
  refine ⟨hclock, hrst, hinputs, fun x => ?_, fun x => ?_, fun x => ?_⟩ <;>
    obtain ⟨hgate, hpress, hpressed, -⟩ := hbtn x
  exacts [hgate, hpress, hpressed ▸ id]

theorem iterStart_keepsInterruptSide (s : State clockW rawW) : KeepsInterruptSide s (iterStart s) :=
  ⟨rfl, rfl, rfl, by simp, by simp, by simp⟩

theorem clearTx_frame (s : State clockW rawW) : SameFrame s (clearTx s) := SameFrame.refl s

@[simp] theorem btn_deliver (P : Config.Params) (raw : Raw rawW) (s : State clockW rawW) (x : Button) :
    btn (deliver P raw s) x = btn s x := by
  rw [deliver_eq]; cases x <;> rfl

theorem deliver_keepsInterruptSide (P : Config.Params) (raw : Raw rawW) (s : State clockW rawW) :
    KeepsInterruptSide s (deliver P raw s) :=
  ⟨by rw [deliver_eq], by rw [deliver_eq], by rw [deliver_eq], by simp, by simp, by simp⟩

/-! ### The stage actions -/

@[simp] theorem clsEdge_stage (P : Config.Params) (x : Button) (s : State clockW rawW) :
    (clsEdge P x s).stage = afterEdge x := by
  obtain ⟨-, e⟩ | ⟨-, -, e⟩ | ⟨-, -, e⟩ := clsEdge_cases P x s <;> rw [e] <;> rfl

@[simp] theorem clsTo_stage (P : Config.Params) (x : Button) (s : State clockW rawW) :
    (clsTo P x s).stage = afterTo x := by
  obtain ⟨-, e⟩ | ⟨-, e⟩ := clsTo_cases P x s <;> rw [e] <;> rfl

@[simp] theorem clsEdge_lastSampleTime (P : Config.Params) (x : Button) (s : State clockW rawW) :
    (clsEdge P x s).lastSampleTime = s.lastSampleTime := by
  obtain ⟨-, e⟩ | ⟨-, -, e⟩ | ⟨-, -, e⟩ := clsEdge_cases P x s <;> simp [e]

@[simp] theorem clsTo_lastSampleTime (P : Config.Params) (x : Button) (s : State clockW rawW) :
    (clsTo P x s).lastSampleTime = s.lastSampleTime := by
  obtain ⟨-, e⟩ | ⟨-, e⟩ := clsTo_cases P x s <;> simp [e]

/-- No stage action leads to ANALOG (R192). -/
theorem stageAction_stage_ne_analog (P : Config.Params) (s : State clockW rawW) (h : s.stage ≠ .analog) :
    (stageAction P s).stage ≠ .analog := by
  obtain e | ⟨ha, -⟩ | ⟨x, -, e⟩ | ⟨x, -, e⟩ := stageAction_cases P s
  · rwa [e]
  · exact absurd ha h
  · cases x <;> simp [e, afterEdge]
  · cases x <;> simp [e, afterTo]

/-- Only the interval check writes `last_sample_time` (R150). -/
theorem stageAction_lastSampleTime (P : Config.Params) (s : State clockW rawW) (h : s.stage ≠ .analog) :
    (stageAction P s).lastSampleTime = s.lastSampleTime := by
  obtain e | ⟨ha, -⟩ | ⟨x, -, e⟩ | ⟨x, -, e⟩ := stageAction_cases P s
  · rw [e]
  · exact absurd ha h
  · simp [e]
  · simp [e]

/-- The interval check writes `now` there, or nothing (R150). -/
theorem analogCheck_lastSampleTime (P : Config.Params) (s : State clockW rawW) :
    (analogCheck P s).lastSampleTime = s.lastSampleTime ∨ (analogCheck P s).lastSampleTime = s.now := by
  obtain ⟨-, e⟩ | ⟨-, e⟩ := analogCheck_cases P s <;> rw [e]
  exacts [.inr rfl, .inl rfl]

/-- A loop that does not run the interval check leaves `last_sample_time` (R150). -/
theorem runLoop_lastSampleTime {P : Config.Params} {s t : State clockW rawW} (hu : s.stage ≠ .unused)
    (ha : s.stage ≠ .analog) (h : runLoop P s = .next t) : t.lastSampleTime = s.lastSampleTime := by
  obtain ⟨⟨-, ht⟩, -⟩ := runLoop_keeps P (fun u => u.stage ≠ .analog ∧ u.lastSampleTime = s.lastSampleTime)
    (fun u ⟨hn, he⟩ _ _ => ⟨stageAction_stage_ne_analog P u hn, (stageAction_lastSampleTime P u hn).trans he⟩)
    s t hu ⟨ha, rfl⟩ h
  exact ht

/-- A loop that begins with the interval check leaves `last_sample_time`, or sets it to `now` (R150). -/
theorem runLoop_analog_lastSampleTime {P : Config.Params} {s t : State clockW rawW} (ha : s.stage = .analog)
    (ht : s.txBusy = false) (h : runLoop P s = .next t) :
    t.lastSampleTime = s.lastSampleTime ∨ t.lastSampleTime = s.now := by
  have hstage : (analogCheck P s).stage ≠ .unused ∧ (analogCheck P s).stage ≠ .analog := by
    obtain ⟨-, e⟩ | ⟨-, e⟩ := analogCheck_cases P s <;> simp [e]
  rw [runLoop_analog ht ha] at h
  rw [runLoop_lastSampleTime hstage.1 hstage.2 h]
  exact analogCheck_lastSampleTime P s

end Sys2Proof.Machine

/-! R39 and R40 as invariants of the machine at every value of its parameters. -/

namespace Sys2Proof.Machine

variable {clockW rawW : Nat} {P : Config.Params}

theorem pressIsGate_iff (s : State clockW rawW) :
    PressIsGate s ↔ ∀ x, (btn s x).pressTime = (btn s x).lastRecordedTime :=
  ⟨fun h x => by cases x; exacts [h.1, h.2], fun h => ⟨h .btnA, h .btnB⟩⟩

theorem KeepsInterruptSide.pressIsGate {s t : State clockW rawW} (h : KeepsInterruptSide s t) (hs : PressIsGate s) :
    PressIsGate t := by
  rw [pressIsGate_iff] at hs ⊢
  intro x
  rw [h.pressTime, h.lastRecordedTime, hs]

/-- An edge writes both registers or neither (R110). -/
theorem edge_pressIsGate (x : Button) (s : State clockW rawW) (hs : PressIsGate s) : PressIsGate (edge P x s) := by
  rw [pressIsGate_iff] at hs ⊢
  intro y
  obtain e | e := btn_edge P x y s <;> rw [e]
  exacts [hs y, rfl]

theorem execWith_pressIsGate (i : Instr rawW) (s t : State clockW rawW) (hs : PressIsGate s)
    (h : execWith P i s = .next t) : PressIsGate t :=
  execWith_keeps P PressIsGate PressIsGate
    (hTick := fun _ hs => hs)
    (hEdge := edge_pressIsGate)
    (hIter := fun s hs _ => (iterStart_keepsInterruptSide s).pressIsGate hs)
    (hAdc := fun raw s hs _ => (deliver_keepsInterruptSide P raw s).pressIsGate hs)
    (hTx := fun _ hs _ _ => hs)
    (keep := fun s hs _ _ => (stageAction_frame P s).keepsInterruptSide.pressIsGate hs)
    (rest := fun _ hs _ => hs)
    i s t hs h

theorem stepWith_pressIsGate {s t : State clockW rawW} (hs : PressIsGate s) (h : stepWith P s = .next t) :
    PressIsGate t :=
  stepBy_keeps PressIsGate (inputs := fun _ _ hs => hs) (reset := fun _ _ => ⟨rfl, rfl⟩)
    (events := execWith_pressIsGate) hs h

/-- Settles O50: an edge writes the gate and the press time together, and every other event leaves both. -/
theorem stepKeepsPressIsGate : Obligations.StepKeepsPressIsGate := fun s _ hs h =>
  stepWith_pressIsGate hs (step_eq_stepWith s ▸ h)

/-- R40 while the loop still runs: the stage has a meaning, and no line is outstanding before or during a
conversion. -/
def NoLineWhileSampling (s : State clockW rawW) : Prop :=
  s.stage ≠ .unused ∧ (s.txBusy = true → s.stage ≠ .analog ∧ s.stage ≠ .adcWait)

/-- The resting states of R40 are those in which such a loop has blocked or ended. -/
theorem loopAtRest_iff (s : State clockW rawW) : LoopAtRest s ↔ NoLineWhileSampling s ∧ loopBlocked s = true := by
  unfold LoopAtRest NoLineWhileSampling
  rw [loopBlocked_iff]
  cases h : s.stage <;> simp

/-- R40 looks at the main-loop context's registers alone. -/
theorem KeepsMainLoopSide.loopAtRest {s t : State clockW rawW} (h : KeepsMainLoopSide s t) (hs : LoopAtRest s) :
    LoopAtRest t := by
  unfold LoopAtRest at hs ⊢
  rwa [h.stage, h.txBusy]

theorem deliver_noLineWhileSampling (raw : Raw rawW) (s : State clockW rawW) :
    NoLineWhileSampling (deliver P raw s) := by
  simp [NoLineWhileSampling, deliver_stage]

/-- An action that sends a line is a classifier's, and leads to a classifier stage or to IDLE (R191, R192). -/
theorem stageAction_noLineWhileSampling (s : State clockW rawW) (hb : loopBlocked s = false) (hu : s.stage ≠ .unused) :
    NoLineWhileSampling (stageAction P s) := by
  have htx : s.txBusy = false := by
    rw [← Bool.not_eq_true, loopBlocked_iff] at hb
    simpa using fun h => hb (.inl h)
  refine ⟨stageAction_stage_ne_unused P s hu, ?_⟩
  obtain e | ⟨-, e⟩ | ⟨x, -, e⟩ | ⟨x, -, e⟩ := stageAction_cases P s <;> rw [e]
  · simp [htx]
  · obtain ⟨-, e⟩ | ⟨-, e⟩ := analogCheck_cases P s <;> simp [e, htx]
  · cases x <;> simp [afterEdge]
  · cases x <;> simp [afterTo]

theorem execWith_loopAtRest (i : Instr rawW) (s t : State clockW rawW) (hs : LoopAtRest s)
    (h : execWith P i s = .next t) : LoopAtRest t :=
  execWith_keeps P LoopAtRest NoLineWhileSampling
    (hTick := fun s => (tick_keepsMainLoopSide s).loopAtRest)
    (hEdge := fun x s => (edge_keepsMainLoopSide P x s).loopAtRest)
    (hIter := fun s _ hi => by simp [NoLineWhileSampling, ((loopIdle_iff s).mp hi).2])
    (hAdc := fun raw s _ _ => deliver_noLineWhileSampling raw s)
    (hTx := fun s _ _ hu => by simp [NoLineWhileSampling, hu])
    (keep := fun s _ => stageAction_noLineWhileSampling s)
    (rest := fun s hs hb => (loopAtRest_iff s).mpr ⟨hs, hb⟩)
    i s t hs h

theorem stepWith_loopAtRest {s t : State clockW rawW} (hs : LoopAtRest s) (h : stepWith P s = .next t) :
    LoopAtRest t :=
  stepBy_keeps LoopAtRest (inputs := fun _ _ hs => hs) (reset := fun _ _ => trivial)
    (events := execWith_loopAtRest) hs h

/-- Settles O51: a loop that runs owes no line while sampling, and it rests only blocked or ended. -/
theorem stepKeepsLoopAtRest : Obligations.StepKeepsLoopAtRest := fun s _ hs h =>
  stepWith_loopAtRest hs (step_eq_stepWith s ▸ h)

/-- Settles O52: neither invariant looks at a width or a constant. -/
theorem invariantsKeptAtEveryParameter : Obligations.InvariantsKeptAtEveryParameter :=
  fun _ _ _ s t hgate hrest =>
    ⟨fun i h => ⟨execWith_pressIsGate i s t hgate h, execWith_loopAtRest i s t hrest h⟩,
      fun h => ⟨stepWith_pressIsGate hgate h, stepWith_loopAtRest hrest h⟩⟩

end Sys2Proof.Machine

/-! What each event does, at this hardware's parameters: what it leaves of either context's registers, what it outputs,
and that it never writes the unused stage. -/

namespace Sys2Proof.Machine

variable {s t u : State} {i : Instr}

/-- The main-loop event `i` has an effect in `s`: it runs the loop from `u` (R151, R175, R190). -/
inductive Resumes (s : State) : Instr → State → Prop where
  | iter (h : loopIdle s = true) : Resumes s .iter (iterStart s)
  | adcDone (raw : Raw) (h : s.stage = .adcWait) : Resumes s (.adcDone raw) (deliver hardware raw s)
  | txDone (h : s.txBusy = true) (hu : s.stage ≠ .unused) : Resumes s .txDone (clearTx s)

/-- A main-loop event that answers next is held or ignored, or its loop ran (R17, R86, R155, R175). -/
theorem exec_mainLoop_cases (hi : contextOf i = .mainLoop) (h : exec i s = .next t) :
    (t = s ∧ ∀ u, ¬ Resumes s i u) ∨ ∃ u, Resumes s i u ∧ runLoop hardware u = .next t := by
  cases i with
  | tick | edgeA | edgeB => cases hi
  | iter =>
    obtain ⟨hl, e⟩ | ⟨hl, e⟩ := iterWith_cases hardware s <;> rw [exec, execIter, e] at h
    · cases h
      exact .inl ⟨rfl, fun _ hr => by cases hr with | iter hl' => simp [hl] at hl'⟩
    · exact .inr ⟨_, .iter hl, h⟩
  | adcDone raw =>
    obtain ⟨ha, e⟩ | ⟨ha, e⟩ := adcDoneWith_cases hardware raw s <;> rw [exec, execAdcDone, e] at h
    · cases h
      exact .inl ⟨rfl, fun _ hr => by cases hr with | adcDone _ hw => simp [adcBusy, hw] at ha⟩
    · exact .inr ⟨_, .adcDone raw ((adcBusy_iff s).mp ha), h⟩
  | txDone =>
    obtain ⟨hb, e⟩ | ⟨hb, e⟩ := txDoneWith_cases hardware s <;> rw [exec, execTxDone, e] at h
    · cases h
      exact .inl ⟨rfl, fun _ hr => by cases hr with | txDone hb' => simp [hb] at hb'⟩
    · refine .inr ⟨_, .txDone hb fun hu => ?_, h⟩
      rw [runLoop_unused hardware (clearTx s) hu rfl] at h
      cases h

/-- Every resumed loop starts at a stage that has a meaning. -/
theorem Resumes.stage_ne_unused (hr : Resumes s i u) : u.stage ≠ .unused := by
  cases hr with
  | iter => simp
  | adcDone => simp [deliver_stage]
  | txDone _ hu => exact hu

/-! ### The writers of each register -/

theorem Resumes.keepsInterruptSide (hr : Resumes s i u) : KeepsInterruptSide s u := by
  cases hr with
  | iter => exact iterStart_keepsInterruptSide s
  | adcDone raw => exact deliver_keepsInterruptSide hardware raw s
  | txDone => exact (clearTx_frame s).keepsInterruptSide

/-- A main-loop event writes no register of the interrupt context (R36). -/
theorem exec_keepsInterruptSide (hi : contextOf i = .mainLoop) (h : exec i s = .next t) : KeepsInterruptSide s t := by
  obtain ⟨rfl, -⟩ | ⟨u, hr, hrun⟩ := exec_mainLoop_cases hi h
  · exact .refl t
  · exact hr.keepsInterruptSide.trans (runLoop_frame hr.stage_ne_unused hrun).keepsInterruptSide

/-- An interrupt event writes no register of the main-loop context (R36). -/
theorem exec_keepsMainLoopSide (hi : contextOf i = .interrupt) (h : exec i s = .next t) : KeepsMainLoopSide s t := by
  cases i with
  | tick => cases h; exact tick_keepsMainLoopSide s
  | edgeA => cases h; exact edge_keepsMainLoopSide hardware .btnA s
  | edgeB => cases h; exact edge_keepsMainLoopSide hardware .btnB s
  | iter | adcDone | txDone => cases hi

/-- Settles O46: each context's events keep the other's registers. -/
theorem writerDiscipline : Obligations.WriterDiscipline := by
  intro i s t h
  refine ⟨fun hi => ?_, fun hi => ?_⟩
  · have k := exec_keepsInterruptSide hi h
    exact ⟨k.clock, fun x => ⟨k.lastRecordedTime x, k.pressTime x, k.pressed x⟩⟩
  · have k := exec_keepsMainLoopSide hi h
    exact ⟨k.now, k.lastSampleTime, k.lastSentValue, k.lastSentValid, k.stage, k.txBusy,
      fun x => ⟨k.pendingClickTime x, k.edgeSeen x, k.edgeTime x, k.pressed x⟩⟩

/-- What a completion, held or not, leaves of the iteration's own registers (R29, R30, R151, R175). -/
structure KeepsSnapshot (s t : State) : Prop where
  now : t.now = s.now
  lastSampleTime : s.stage ≠ .analog → t.lastSampleTime = s.lastSampleTime
  capture : ∀ x, SameCapture (btn s x) (btn t x)

/-- A run of the loop outside ANALOG leaves them (R150, R196). -/
theorem runLoop_keepsSnapshot (hu : u.stage ≠ .unused) (hrun : runLoop hardware u = .next t) : KeepsSnapshot u t := by
  obtain ⟨-, hnow, -, -, -, -, hbtn⟩ := runLoop_frame hu hrun
  exact ⟨hnow, fun ha => runLoop_lastSampleTime hu ha hrun, hbtn⟩

/-- ADC_DONE and TX_DONE leave them up to their loop. -/
theorem Resumes.completion (hr : Resumes s i u) (hi : i ≠ .iter) :
    u.now = s.now ∧ u.lastSampleTime = s.lastSampleTime ∧ (s.stage ≠ .analog → u.stage ≠ .analog) ∧
      ∀ x, btn u x = btn s x := by
  cases hr with
  | iter => exact absurd rfl hi
  | adcDone raw =>
    exact ⟨by rw [deliver_eq], by rw [deliver_eq], fun _ => by simp [deliver_stage], by simp⟩
  | txDone => exact ⟨rfl, rfl, id, by simp⟩

theorem exec_completion_keepsSnapshot (hi : contextOf i = .mainLoop) (hne : i ≠ .iter) (h : exec i s = .next t) :
    KeepsSnapshot s t := by
  obtain ⟨rfl, -⟩ | ⟨u, hr, hrun⟩ := exec_mainLoop_cases hi h
  · exact ⟨rfl, fun _ => rfl, fun _ => ⟨rfl, rfl, rfl, rfl⟩⟩
  · obtain ⟨hnow, hsample, hstage, hbtn⟩ := hr.completion hne
    have k := runLoop_keepsSnapshot hr.stage_ne_unused hrun
    exact ⟨k.now.trans hnow, fun ha => (k.lastSampleTime (hstage ha)).trans hsample, fun x => hbtn x ▸ k.capture x⟩

/-- An ITER that starts an iteration takes the snapshot, and its loop keeps it (R190). -/
theorem exec_iter_snapshot (hl : loopIdle s = true) (h : exec .iter s = .next t) :
    t.now = s.clock ∧ (t.lastSampleTime = s.lastSampleTime ∨ t.lastSampleTime = s.clock) ∧
      ∀ x, SameCapture (snapshotBtn (btn s x)) (btn t x) := by
  obtain ⟨-, hheld⟩ | ⟨u, hr, hrun⟩ := exec_mainLoop_cases rfl h
  · exact absurd (.iter hl) (hheld _)
  · cases hr
    obtain ⟨-, hnow, -, -, -, -, hbtn⟩ := runLoop_frame (by simp) hrun
    exact ⟨hnow, runLoop_analog_lastSampleTime (iterStart_stage s) ((loopIdle_iff s).mp hl).2 hrun,
      fun x => btn_iterStart s x ▸ hbtn x⟩

/-- Only ADC_DONE writes the last sent value (R151). -/
theorem exec_keeps_lastSent (hi : contextOf i = .mainLoop) (hne : ∀ raw, i ≠ .adcDone raw) (h : exec i s = .next t) :
    t.lastSentValue = s.lastSentValue ∧ t.lastSentValid = s.lastSentValid := by
  obtain ⟨rfl, -⟩ | ⟨u, hr, hrun⟩ := exec_mainLoop_cases hi h
  · exact ⟨rfl, rfl⟩
  · obtain ⟨-, -, hvalue, hvalid, -⟩ := runLoop_frame hr.stage_ne_unused hrun
    cases hr with
    | adcDone raw => exact absurd rfl (hne raw)
    | iter | txDone => exact ⟨hvalue, hvalid⟩

/-- Settles O47: the interrupt side, the snapshot and the last sent value each by the lemma on who writes them. -/
theorem mainLoopFrame : Obligations.MainLoopFrame := by
  intro i s t hi h
  have k := exec_keepsInterruptSide hi h
  refine ⟨⟨k.clock, k.rst, k.inputs, fun x => ⟨k.lastRecordedTime x, k.pressTime x⟩⟩, fun hne => ?_, ?_,
    fun hne => exec_keeps_lastSent hi hne h⟩
  · obtain ⟨hnow, hsample, hbtn⟩ := exec_completion_keepsSnapshot hi hne h
    refine ⟨hnow, hsample, fun x => ?_⟩
    obtain ⟨-, -, hpressed, hedge⟩ := hbtn x
    exact ⟨hedge, hpressed⟩
  · rintro rfl hl
    obtain ⟨hnow, hsample, hbtn⟩ := exec_iter_snapshot hl h
    refine ⟨hnow, hsample, fun x => ?_⟩
    obtain ⟨-, -, hpressed, hedge⟩ := hbtn x
    exact ⟨hpressed.trans (snapshotBtn_pressed_eq_false _), hedge.trans (snapshotBtn_edgeTime _)⟩

/-! ### The output -/

/-- Since its trace was `os`, the block has output nothing; or it started a conversion and waits for it; or it sent one
line of the grammar, which is outstanding (R42, R170). -/
def OneOutputSince (os : List OutEvent) (s : State) : Prop :=
  s.trace = os ∨ (s.stage = .adcWait ∧ s.trace = os ++ [.adcStart Config.adcChannel]) ∨
    ∃ bytes, GrammarLine 16 bytes ∧ s.txBusy = true ∧ s.trace = os ++ [.txLine bytes]

/-- An action runs only while nothing is waited for, so it is the first to output (R191). -/
theorem stageAction_oneOutputSince {os : List OutEvent} (hs : OneOutputSince os s) (hb : loopBlocked s = false) :
    OneOutputSince os (stageAction hardware s) := by
  have hfree : ¬ (s.txBusy = true ∨ s.stage = .idle ∨ s.stage = .adcWait) := by simp [← loopBlocked_iff, hb]
  obtain rfl | ⟨hw, -⟩ | ⟨-, -, ht, -⟩ := hs
  · obtain ⟨e, -⟩ | h | h := stageAction_output hardware s
    exacts [.inl e, .inr (.inl h), .inr (.inr h)]
  · exact absurd (.inr (.inr hw)) hfree
  · exact absurd (.inl ht) hfree

/-- Up to its loop, a main-loop event outputs at most ADC_DONE's value line (R151). -/
theorem Resumes.oneOutputSince (hr : Resumes s i u) : OneOutputSince s.trace u := by
  cases hr with
  | iter | txDone => exact .inl rfl
  | adcDone raw =>
    obtain ⟨-, e⟩ | ⟨-, e⟩ := deliver_cases hardware raw s <;> rw [e]
    · exact .inr (.inr ⟨_, .value _, rfl, rfl⟩)
    · exact .inl rfl

theorem exec_mainLoop_oneOutputSince (hi : contextOf i = .mainLoop) (h : exec i s = .next t) :
    OneOutputSince s.trace t := by
  obtain ⟨rfl, -⟩ | ⟨u, hr, hrun⟩ := exec_mainLoop_cases hi h
  · exact .inl rfl
  · obtain ⟨ht, -⟩ := runLoop_keeps hardware (OneOutputSince s.trace)
      (fun _ hv hb _ => stageAction_oneOutputSince hv hb) u t hr.stage_ne_unused hr.oneOutputSince hrun
    exact ht

/-- Settles O45: an interrupt event appends its acknowledgement, and a main-loop event outputs once at most. -/
theorem oneOutputPerEvent : Obligations.OneOutputPerEvent := by
  intro i s t h
  refine ⟨?_, ?_, ?_, fun hi => exec_mainLoop_oneOutputSince hi h⟩
  · rintro rfl
    cases h
    rfl
  · rintro rfl
    cases h
    rw [edge_eq]
  · rintro rfl
    cases h
    rw [edge_eq]

/-! ### The unused stage -/

/-- No event leads to the unused stage from another (R33). -/
theorem exec_stage_ne_unused (hs : s.stage ≠ .unused) (h : exec i s = .next t) : t.stage ≠ .unused := by
  cases hi : contextOf i with
  | interrupt => rwa [(exec_keepsMainLoopSide hi h).stage]
  | mainLoop =>
    obtain ⟨rfl, -⟩ | ⟨u, hr, hrun⟩ := exec_mainLoop_cases hi h
    · exact hs
    · obtain ⟨-, -, ht⟩ := runLoop_keeps hardware (fun _ => True) (fun _ _ _ _ => trivial) u t
        hr.stage_ne_unused trivial hrun
      exact ht

/-- Settles O6: the codes by their eight values, and an event's last stage by whether its loop ran. -/
theorem stageEncoding : Obligations.StageEncoding :=
  ⟨fun v => by cases v <;> rfl, by decide, by decide, fun _ _ _ => exec_stage_ne_unused⟩

/-- A state at the unused stage has nothing to fetch but a drive of the reset line that resets it (R33, R223, R240; log
entry 5). -/
theorem fetch_unused {clockW rawW : Nat} {s : State clockW rawW} (hu : s.stage = .unused)
    (hrst : ∀ level, .rst level ∈ s.inputs → driveResets level s = false) : fetch s = .stop .unusedStage := by
  unfold fetch
  cases hf : firstAccepted (inputAccepted s) s.inputs with
  | none => simp [hu]
  | some q =>
    obtain ⟨x, rest⟩ := q
    obtain ⟨held, post, hin, -⟩ := firstAccepted_some _ _ _ _ hf
    cases x with
    | rst level => simp [hu, hrst level (by simp [hin])]
    | offer w => simp [hu]

/-- Settles O12: by what is fetched at the unused stage, and by the refusal of its RunLoop. -/
theorem unusedStageRefused : Obligations.UnusedStageRefused := by
  refine ⟨fun s hu hin => ?_, fun s hu ht => ?_⟩
  · have hrst : ∀ level, .rst level ∈ s.inputs → driveResets level s = false := fun level hl => by
      obtain ⟨hlevel, hs⟩ := hin level hl
      simp [driveResets, hlevel, hs]
    rw [step, stepBy, fetch_unused hu hrst]
  · rw [exec, execTxDone, txDoneWith, if_pos ht]
    exact runLoop_unused hardware (clearTx s) hu rfl

end Sys2Proof.Machine

/-! The state at reset and at a clean entry, and the outputs that are functions of the state. -/

namespace Sys2Proof.Machine

/-- A ResetState is the reset state with any offers (R262). -/
theorem resetState_iff (s : State) : ResetState s ↔ ∃ offers, s = { State.reset with inputs := offers } where
  mp h := ⟨s.inputs, congrArg (fun r : State => { r with inputs := s.inputs }) h⟩
  mpr := by
    rintro ⟨offers, rfl⟩
    rfl

/-- Where nothing has been sent, every line sent is one of the grammar (R171). -/
theorem linesInGrammar_of_trace_nil {s : State} (h : s.trace = []) : LinesInGrammar s := by
  simp [LinesInGrammar, h]

/-- R39, R40 and R171 are among what CleanEntry asks, or follow from the idle loop and the empty trace (R262). -/
theorem CleanValues.invariants {v : List RegValue} {s : State} (h : CleanValues v s) :
    PressIsGate s ∧ LoopAtRest s ∧ LinesInGrammar s := by
  obtain ⟨-, hstage, -, -, -, hgateA, hgateB, -, -, htrace, -⟩ := h
  exact ⟨⟨hgateA, hgateB⟩, by simp [LoopAtRest, hstage], linesInGrammar_of_trace_nil htrace⟩

/-- Settles O49: at reset every time stamp is 0, the loop is idle and the trace empty. -/
theorem invariantsAtReset : Obligations.InvariantsAtReset :=
  ⟨by decide, trivial, rfl, by decide, linesInGrammar_of_trace_nil rfl, by decide, resetState_iff,
    fun _ _ => CleanValues.invariants⟩

/-- A classifier is Idle exactly where nothing is pending, and Pending otherwise (R26). -/
theorem classifierState_iff {clockW rawW : Nat} (s : State clockW rawW) (x : Button) :
    (classifierState s x = .idle ↔ (btn s x).pendingClickTime = 0) ∧
      (classifierState s x = .pending ↔ (btn s x).pendingClickTime ≠ 0) := by
  unfold classifierState
  split
  next h => simp [h]
  next h => simpa using h

/-- Settles O60: each status output by its characterisation. -/
theorem statusOutputs : Obligations.StatusOutputs := fun s =>
  ⟨loopIdle_iff s, adcBusy_iff s, Iff.rfl, rfl, classifierState_iff s⟩

end Sys2Proof.Machine

/-! The words of the events: which words spell one, and what becomes of the others (R80 to R85). -/

namespace Sys2Proof

/-- The ops of the opcode map are 1 to 6 (R84). -/
theorem Instr.opcode_bounds {rawW : Nat} (i : Instr rawW) : 1 ≤ i.opcode ∧ i.opcode ≤ 6 := by
  cases i <;> simp [Instr.opcode]

/-- Only op 5 has an operand (R83). -/
theorem Instr.payload_of_opcode_ne {rawW : Nat} {i : Instr rawW} (h : i.opcode ≠ 5) : i.payload = 0 := by
  cases i with
  | adcDone raw => exact absurd rfl h
  | tick | edgeA | edgeB | iter | txDone => rfl

/-- Every op of the map names an event, with any result for ADC_DONE (R84). -/
theorem exists_instr_of_opcode {op : Nat} (hlow : 1 ≤ op) (hhigh : op ≤ 6) (raw : Raw)
    (hraw : op ≠ 5 → raw.toNat = 0) : ∃ i : Instr, op = i.opcode ∧ raw.toNat = i.payload := by
  obtain rfl | rfl | rfl | rfl | rfl | rfl : op = 1 ∨ op = 2 ∨ op = 3 ∨ op = 4 ∨ op = 5 ∨ op = 6 := by omega
  · exact ⟨.tick, rfl, hraw (by decide)⟩
  · exact ⟨.edgeA, rfl, hraw (by decide)⟩
  · exact ⟨.edgeB, rfl, hraw (by decide)⟩
  · exact ⟨.iter, rfl, hraw (by decide)⟩
  · exact ⟨.adcDone raw, rfl, rfl⟩
  · exact ⟨.txDone, rfl, hraw (by decide)⟩

/-- Which words spell an event, by their three fields (R83, R84). -/
theorem exists_decode_event_iff (w : EventWord) :
    (∃ i, decode w = .event i) ↔
      1 ≤ (opField w).toNat ∧ (opField w).toNat ≤ 6 ∧ (rsvField w).toNat = 0 ∧
        ((opField w).toNat ≠ 5 → (payloadField w).toNat = 0) := by
  constructor
  · rintro ⟨i, h⟩
    have hw : SpellsEvent w i := decodeAt_eq_event_iff.mp h
    rw [hw.op, hw.payload, hw.rsv]
    exact ⟨i.opcode_bounds.1, i.opcode_bounds.2, rfl, Instr.payload_of_opcode_ne⟩
  · rintro ⟨hlow, hhigh, hrsv, hpay⟩
    obtain ⟨i, hop, hraw⟩ := exists_instr_of_opcode hlow hhigh (payloadField w) hpay
    exact ⟨i, decodeAt_eq_event_iff.mpr ⟨⟨hop, hraw, i.hasWord_of_le (by decide)⟩, BitVec.eq_of_toNat_eq hrsv⟩⟩

/-- A word that spells no event is reserved (R85). -/
theorem exists_reserved_of_not_event {w : EventWord} (h : ¬ ∃ i, decode w = .event i) :
    ∃ why, decode w = .reserved why := by
  cases hd : decode w with
  | event i => exact absurd ⟨i, hd⟩ h
  | reserved why => exact ⟨why, rfl⟩

/-- Settles O1: by evaluating the decoder on the eleven words. -/
theorem opcodeMapWords : Obligations.OpcodeMapWords := by
  unfold Obligations.OpcodeMapWords
  decide

/-- Settles O2: at RAW_W = 16 the format has a word for every event. -/
theorem decodeOfEncode : Obligations.DecodeOfEncode := fun i => decodeAt_encodeAt (i.hasWord_of_le (by decide))

/-- Settles O3: a word that decodes to an event spells it, and only one word does. -/
theorem encodeOfDecode : Obligations.EncodeOfDecode := fun _ _ => encodeAt_of_decodeAt

/-- Settles O4: the characterisation by the fields, with the fields read as numbers. -/
theorem wordsThatSpellEvents : Obligations.WordsThatSpellEvents := fun w => by
  rw [exists_decode_event_iff, opField_toNat, rsvField_toNat, payloadField_toNat]

end Sys2Proof

/-! What a step does with a reserved, a held and an accepted offer (R85, R86). -/

namespace Sys2Proof.Machine

section Fetch

variable {clockW rawW : Nat} {s : State clockW rawW}

/-- A reserved word in front is fetched as a refusal (R85; log entry 12). -/
theorem fetch_reserved {w : EventWord} {why : Reserved} {rest : List HostInput} (hrst : s.rst = false)
    (hstage : s.stage ≠ .unused) (hin : s.inputs = .offer w :: rest) (hdec : decodeAt rawW w = .reserved why) :
    fetch s = .stop (.reservedWord w why) := by
  have hfirst : firstAccepted (inputAccepted s) s.inputs = some (.offer w, rest) := by
    simp [hin, firstAccepted, inputAccepted, hdec, hrst]
  simp [fetch, hfirst, hstage, hdec]

/-- Where no input may be taken, nothing is fetched (R86, R198; log entry 2). -/
theorem fetch_nothing (hstage : s.stage ≠ .unused) (hheld : ∀ x ∈ s.inputs, inputAccepted s x = false) :
    fetch s = .nothing := by
  have hnone := (firstAccepted_none (inputAccepted s) s.inputs).mpr hheld
  simp [fetch, hnone, hstage]

end Fetch

variable {s : State} {i : Instr}

/-- The offer of an event's word may be taken exactly when the event may (R84, R86). -/
@[simp] theorem inputAccepted_encode (s : State) (i : Instr) :
    inputAccepted s (.offer (encode i)) = offerAccepted s i := by
  simp [inputAccepted, decodeOfEncode i]

/-- An event whose acceptance condition fails may not be taken (R86). -/
theorem offerAccepted_of_not_accepts (h : accepts s i = false) : offerAccepted s i = false := by
  simp [offerAccepted, h]

/-- A step that is offered nothing but a held event changes nothing (R17, R86). -/
theorem step_held_offer (hstage : s.stage ≠ .unused) (hin : s.inputs = [.offer (encode i)])
    (hacc : accepts s i = false) : step s = .next s := by
  have hheld : ∀ x ∈ s.inputs, inputAccepted s x = false := by
    simp [hin, offerAccepted_of_not_accepts hacc]
  rw [step, stepBy, fetch_nothing hstage hheld]

/-- Only ITER has an acceptance condition (R86). -/
theorem accepts_of_ne_iter (s : State) (h : i ≠ .iter) : accepts s i = true := by
  cases i with
  | iter => exact absurd rfl h
  | tick | edgeA | edgeB | adcDone | txDone => rfl

/-- The acceptance conditions (R86). -/
theorem accepts_iff (s : State) (i : Instr) :
    accepts s i = true ↔ (i = .iter → s.stage = .idle ∧ s.txBusy = false) := by
  by_cases hi : i = .iter
  · subst hi
    exact (loopIdle_iff s).trans (by simp)
  · simp [accepts_of_ne_iter s hi, hi]

/-- An event that is not accepted changes nothing (R17, R86; log entry 11). -/
theorem exec_of_not_accepts (h : accepts s i = false) : exec i s = .next s := by
  by_cases hi : i = .iter
  · subst hi
    exact if_neg (by rw [show loopIdle s = false from h]; decide)
  · rw [accepts_of_ne_iter s hi] at h
    cases h

/-- ADC_DONE outside the wait is ignored (R155). -/
theorem exec_adcDone_ignored (raw : Raw) (h : s.stage ≠ .adcWait) : exec (.adcDone raw) s = .next s :=
  if_neg fun hbusy => h ((adcBusy_iff s).mp hbusy)

/-- TX_DONE with no line outstanding is ignored (R175). -/
theorem exec_txDone_ignored (h : s.txBusy = false) : exec .txDone s = .next s :=
  if_neg (by simp [h])

/-- The acceptance condition reads neither the reset line nor the offers (R86). -/
theorem accepts_withFetchWord (s : State) (nbits w : Nat) (i : Instr) :
    accepts (s.withFetchWord nbits w) i = accepts s i := by
  cases i <;> rfl

/-- Settles O5: such a word spells no event, so it is reserved, and it is what the step fetches. -/
theorem reservedWordsRefused : Obligations.ReservedWordsRefused := by
  intro s w rest hrst hstage hin hbad
  have hnone : ¬ ∃ i, decode w = .event i := by
    rw [exists_decode_event_iff]
    rintro ⟨hlow, hhigh, hrsv, hpay⟩
    obtain h | ⟨hop, h⟩ | h | h := hbad
    · exact h (BitVec.eq_of_toNat_eq hrsv)
    · exact h (BitVec.eq_of_toNat_eq (hpay fun h5 => hop (BitVec.eq_of_toNat_eq h5)))
    · rw [show opField w = 0 from h] at hlow
      exact absurd hlow (by decide)
    · exact absurd (Nat.le_trans h hhigh) (by decide)
  obtain ⟨why, hdec⟩ := exists_reserved_of_not_event hnone
  exact ⟨why, hdec, by rw [step, stepBy, fetch_reserved hrst hstage hin hdec]⟩

/-- Settles O11: each event by its own acceptance rule, and the step by what it fetches past a held ITER. -/
theorem acceptanceConditions : Obligations.AcceptanceConditions := by
  refine ⟨accepts_iff, fun _ _ => exec_of_not_accepts, fun _ => step_held_offer,
    fun _ raw => exec_adcDone_ignored raw, fun _ => exec_txDone_ignored, ?_⟩
  intro s i rest hrst hstage hiter hi hin
  have hne : i ≠ .iter := by rintro rfl; simp at hi
  exact stepRunsDecodedEvent s [.offer (encode .iter)] rest (encode i) i hrst hstage hin
    (by simp [offerAccepted_of_not_accepts hiter]) (decodeOfEncode i) (accepts_of_ne_iter s hne)

/-- Settles O10: the fetch word is the only offer, so the step runs its event or finds nothing to take. -/
theorem fetchWordRuns : Obligations.FetchWordRuns := by
  intro s i hstage
  have hword := withFetchWord_word s (encode i)
  have haccepts := accepts_withFetchWord s 32 (encode i).toNat i
  rw [hword] at haccepts ⊢
  refine ⟨fun h => ?_, fun h => step_held_offer hstage rfl (haccepts.trans h)⟩
  exact stepRunsDecodedEvent _ [] [] (encode i) i rfl hstage rfl (by simp) (decodeOfEncode i) (haccepts.trans h)

end Sys2Proof.Machine

/-! Playing a trace (R88): the events of a line one by one, a held line, and the refused stage. -/

namespace Sys2Proof.Machine

variable {s t : State} {i : Instr}

/-- An accepted event that answers next is played, and the rest follows (R88). -/
theorem playEvents_cons (is : List Instr) (hstage : s.stage ≠ .unused) (hacc : offerAccepted s i = true)
    (he : exec i s = .next t) : playEvents (i :: is) s = playEvents is t := by
  simp [playEvents, hstage, hacc, he]

/-- Events are held at the first that may not be taken (R86, R88). -/
theorem playEvents_held (is : List Instr) (hstage : s.stage ≠ .unused) (hacc : offerAccepted s i = false) :
    playEvents (i :: is) s = none := by
  simp [playEvents, hstage, hacc]

/-- Nothing is played at the unused stage (R33, R223; log entry 5). -/
theorem playEvents_unused (is : List Instr) (hstage : s.stage = .unused) :
    playEvents is s = some (.refused .unusedStage) := by
  cases is <;> simp [playEvents, hstage]

/-- A line whose events are held keeps the trace (R88; log entry 13). -/
theorem play_held {l : TraceLine} (ls : List TraceLine) (h : playEvents (expand s.clock l) s = none) :
    play (l :: ls) s = .held (l :: ls) s := by
  simp [play, h]

/-- No trace is played at the unused stage (R33, R223; log entry 5). -/
theorem play_unused (ls : List TraceLine) (hstage : s.stage = .unused) : play ls s = .refused .unusedStage := by
  cases ls with
  | nil => simp [play, hstage]
  | cons l ls => simp [play, playEvents_unused _ hstage]

/-- A busy loop holds ITER (R194). -/
theorem accepts_iter_of_busy (h : s.stage ≠ .idle ∨ s.txBusy = true) : accepts s .iter = false := by
  rw [← Bool.not_eq_true, accepts_iff]
  intro hidle
  obtain ⟨hstage, htx⟩ := hidle rfl
  simp [hstage, htx] at h

/-- While `rst` is asserted every line with an event is held (R240; log entry 13). -/
theorem playEvents_held_of_rst {is : List Instr} (hstage : s.stage ≠ .unused) (hrst : s.rst = true)
    (hne : is ≠ []) : playEvents is s = none := by
  cases is with
  | nil => exact absurd rfl hne
  | cons i is => exact playEvents_held is hstage (by simp [offerAccepted, hrst])

/-- Settles O58: the first event of the line is held, or the stage is refused before it. -/
theorem playStaysAtHeldLine : Obligations.PlayStaysAtHeldLine := by
  intro s ls
  refine ⟨fun hstage hbusy => ?_, fun hstage hrst l hne => play_held ls (playEvents_held_of_rst hstage hrst hne),
    fun hstage => ⟨play_unused ls hstage, fun is => playEvents_unused is hstage⟩⟩
  have hiter : playEvents [.iter] s = none :=
    playEvents_held [] hstage (offerAccepted_of_not_accepts (accepts_iter_of_busy hbusy))
  exact ⟨play_held ls hiter, play_held ls hiter⟩

/-- The state after `n` TICKs (R100). -/
def afterTicks {clockW rawW : Nat} (n : Nat) (s : State clockW rawW) : State clockW rawW :=
  { s with clock := s.clock + BitVec.ofNat clockW n, trace := s.trace ++ List.replicate n .tickAck }

theorem afterTicks_zero {clockW rawW : Nat} (s : State clockW rawW) : afterTicks 0 s = s := by
  simp [afterTicks]

/-- One TICK and `n` more are `n + 1` (R100). -/
theorem afterTicks_tick {clockW rawW : Nat} (n : Nat) (s : State clockW rawW) :
    afterTicks n (tick s) = afterTicks (n + 1) s := by
  have hclock : s.clock + 1#clockW + BitVec.ofNat clockW n = s.clock + BitVec.ofNat clockW (n + 1) := by
    rw [Nat.add_comm, BitVec.ofNat_add, BitVec.add_assoc]
  simp [afterTicks, tick, incW, hclock, List.replicate_succ]

/-- TICKs played one after another are counted and acknowledged (R88, R100). -/
theorem playEvents_ticks (n : Nat) {s : State} (hrst : s.rst = false) (hstage : s.stage ≠ .unused) :
    playEvents (List.replicate n .tick) s = some (.next (afterTicks n s)) := by
  induction n generalizing s with
  | zero => simp [playEvents, hstage, afterTicks_zero]
  | succ n ih =>
    rw [List.replicate_succ, playEvents_cons _ hstage (by simp [offerAccepted, hrst, accepts]) rfl,
      ← afterTicks_tick]
    exact ih hrst hstage

/-- As many TICKs as `c` is ahead of Clock bring Clock to `c`, across the wrap too (R15, R88). -/
theorem afterTicks_elapsed_clock {clockW rawW : Nat} (c : TimeStamp clockW) (s : State clockW rawW) :
    (afterTicks (elapsed c s.clock) s).clock = c := by
  rw [afterTicks, elapsed, BitVec.ofNat_toNat, BitVec.setWidth_eq, BitVec.add_comm, BitVec.sub_add_cancel]

/-- Settles O57: the expansion is that many TICKs, which are played one after another. -/
theorem advanceToReaches : Obligations.AdvanceToReaches := fun s c hrst hstage =>
  ⟨_, playEvents_ticks _ hrst hstage, afterTicks_elapsed_clock c s, rfl, rfl⟩

end Sys2Proof.Machine

/-! The text of a trace line (R87, R88): what separates its words, its decimal operand, and reading it back. -/

namespace Sys2Proof.Machine

/-- The text of a word of a line: neither a blank nor a comment is in it (R87). -/
structure IsWordText (cs : List Char) : Prop where
  nonempty : cs ≠ []
  noBlank : ∀ c ∈ cs, isBlank c = false
  noComment : ∀ c ∈ cs, (c != ';') = true

/-- A word alone is the line's only word (R87). -/
theorem lineWords_word {m : List Char} (h : IsWordText m) : lineWords m = [m] := by
  rw [lineWords, List.takeWhile_eq_self_iff.mpr h.noComment, List.splitOnP_eq_singleton h.noBlank]
  simp [h.nonempty]

/-- Two words with a space between them are the line's words (R87; log entry 18). -/
theorem lineWords_word_space_word {m n : List Char} (hm : IsWordText m) (hn : IsWordText n) :
    lineWords (m ++ ' ' :: n) = [m, n] := by
  have hline : ∀ c ∈ m ++ ' ' :: n, (c != ';') = true := by
    intro c hc
    obtain hc | rfl | hc : c ∈ m ∨ c = ' ' ∨ c ∈ n := by simpa using hc
    exacts [hm.noComment c hc, rfl, hn.noComment c hc]
  rw [lineWords, List.takeWhile_eq_self_iff.mpr hline, List.splitOnP_append_cons_of_forall_mem hm.noBlank ' ' rfl,
    List.splitOnP_eq_singleton hn.noBlank]
  simp [hm.nonempty, hn.nonempty]

theorem isWordText_mnemonicText (l : TraceLine) : IsWordText (mnemonicText l) := by
  cases l with
  | event i => cases i <;> constructor <;> simp [mnemonicText, isBlank]
  | ticks | advanceTo | step | sample | ack => constructor <;> simp [mnemonicText, isBlank]

/-- The test of `readDigits` is the library's, as `Nat.toDigits` has lemmas about (R87). -/
theorem isDigit_iff (c : Char) : c.isDigit = true ↔ '0' ≤ c ∧ c ≤ '9' := by
  simp [Char.isDigit, Char.le_def]

/-- A decimal digit neither separates words nor begins a comment (R87). -/
theorem not_separator_of_isDigit {c : Char} (h : c.isDigit = true) : isBlank c = false ∧ (c != ';') = true := by
  have hne : ∀ d : Char, d.isDigit = false → c ≠ d := by
    rintro d hd rfl
    simp [h] at hd
  simp [isBlank, hne ' ' rfl, hne '\t' rfl, hne ';' rfl]

theorem isWordText_toDigits (n : Nat) : IsWordText (Nat.toDigits 10 n) where
  nonempty := Nat.toDigits_ne_nil
  noBlank _ hc := (not_separator_of_isDigit (Nat.isDigit_of_mem_toDigits (by decide) (by decide) hc)).1
  noComment _ hc := (not_separator_of_isDigit (Nat.isDigit_of_mem_toDigits (by decide) (by decide) hc)).2

/-- Reading digits computes the number they spell (R87). -/
theorem readDigits_eq_ofDigitChars (v : Nat) {cs : List Char} (h : ∀ c ∈ cs, c.isDigit = true) :
    readDigits v cs = some (Nat.ofDigitChars 10 cs v) := by
  induction cs generalizing v with
  | nil => rfl
  | cons c cs ih =>
    obtain ⟨hc, hcs⟩ := List.forall_mem_cons.mp h
    rw [readDigits, if_pos ((isDigit_iff c).mp hc), ih _ hcs, Nat.ofDigitChars_cons]
    rfl

/-- A number's decimal form reads back as the number (R87). -/
@[simp] theorem readNumber_toDigits (n : Nat) : readNumber (Nat.toDigits 10 n) = some n := by
  have hread : readNumber (Nat.toDigits 10 n) = readDigits 0 (Nat.toDigits 10 n) := by
    cases h : Nat.toDigits 10 n with
    | nil => exact absurd h Nat.toDigits_ne_nil
    | cons c cs => rfl
  rw [hread, readDigits_eq_ofDigitChars 0 fun c => Nat.isDigit_of_mem_toDigits (by decide) (by decide),
    Nat.ofDigitChars_ten_toDigits]

/-- A result's decimal form is in the range of a raw operand (R87). -/
@[simp] theorem readRaw_toDigits (raw : Raw) : readRaw (Nat.toDigits 10 raw.toNat) = some raw := by
  rw [readRaw, readNumber_toDigits]
  simp [raw.isLt]

/-- The words of a line's text: its mnemonic, and its operand in decimal if it has one (R87, R88). -/
theorem lineWords_lineText (l : TraceLine) :
    lineWords (lineText l) = mnemonicText l :: (operandOf l).toList.map (Nat.toDigits 10) := by
  unfold lineText
  cases operandOf l with
  | none => exact lineWords_word (isWordText_mnemonicText l)
  | some n => exact lineWords_word_space_word (isWordText_mnemonicText l) (isWordText_toDigits n)

/-- The words of a line name it (R87, R88). -/
theorem readWords_wordsOf (l : TraceLine) :
    readWords (mnemonicText l :: (operandOf l).toList.map (Nat.toDigits 10)) = some l := by
  cases l with
  | event i =>
    cases i with
    | adcDone raw => simp [operandOf, readWords, mnemonicText]
    | tick | edgeA | edgeB | iter | txDone => rfl
  | ticks n => simp [operandOf, readWords, mnemonicText]
  | advanceTo t => simp [operandOf, readWords, mnemonicText]
  | sample raw => simp [operandOf, readWords, mnemonicText]
  | step | ack => rfl

/-- Settles O7: the text is cut into the mnemonic and the operand, and these name the line. -/
theorem traceTextReadsBack : Obligations.TraceTextReadsBack := fun l => by
  rw [readLine, lineWords_lineText, readWords_wordsOf]

end Sys2Proof.Machine

/-! The millisecond ticker: what a TICK does to Clock (R100), and Clock as the number of TICKs since reset (R101). -/

namespace Sys2Proof.Machine

/-- Settles O17: a TICK is the ticker's update alone, whose increment wraps at the width of Clock. -/
theorem tickCountsOne : Obligations.TickCountsOne :=
  ⟨rfl, fun s => ⟨rfl, rfl, BitVec.toNat_add s.clock 1⟩⟩

/-- The TICKs of two parts of a trace add up (R43). -/
@[simp] theorem tickCount_append (os ps : List OutEvent) : tickCount (os ++ ps) = tickCount os + tickCount ps := by
  induction os with
  | nil => simp [tickCount]
  | cons o os ih => cases o <;> simp [tickCount, ih, Nat.add_right_comm]

variable {clockW rawW : Nat}

/-- Where neither Clock nor the number of TICKs changes, R101 goes on to hold. -/
theorem ClockCountsTicks.of_eq {s t : State clockW rawW} (hs : ClockCountsTicks s) (hclock : t.clock = s.clock)
    (hcount : tickCount t.trace = tickCount s.trace) : ClockCountsTicks t := by
  rw [ClockCountsTicks, hclock, hcount, hs]

/-- A TICK adds one to Clock and one TickAck to the trace (R100). -/
theorem tick_clockCountsTicks {s : State clockW rawW} (hs : ClockCountsTicks s) : ClockCountsTicks (tick s) := by
  have hcount : tickCount (tick s).trace = tickCount s.trace + 1 := tickCount_append s.trace [.tickAck]
  have hclock : (tick s).clock = s.clock + 1 := rfl
  rw [ClockCountsTicks, hclock, hcount, hs, BitVec.ofNat_add]
  rfl

/-- EDGE_b leaves Clock and outputs no TickAck (R110). -/
theorem edge_clockCountsTicks (P : Config.Params) (x : Button) {s : State clockW rawW} (hs : ClockCountsTicks s) :
    ClockCountsTicks (edge P x s) :=
  hs.of_eq (by rw [edge_eq]) (by rw [edge_eq]; exact tickCount_append s.trace [.edgeAck x])

/-- What a main-loop event outputs is no TickAck (R42). -/
theorem OneOutputSince.tickCount_eq {os : List OutEvent} {s : State} (h : OneOutputSince os s) :
    tickCount s.trace = tickCount os := by
  obtain e | ⟨-, e⟩ | ⟨bytes, -, -, e⟩ := h <;> simp [e, tickCount]

/-- A main-loop event writes no Clock and outputs no TickAck (R36, R42). -/
theorem exec_mainLoop_clockCountsTicks {i : Instr} {s t : State} (hi : contextOf i = .mainLoop)
    (hs : ClockCountsTicks s) (h : exec i s = .next t) : ClockCountsTicks t :=
  hs.of_eq (exec_keepsInterruptSide hi h).clock (exec_mainLoop_oneOutputSince hi h).tickCount_eq

theorem exec_clockCountsTicks (i : Instr) (s t : State) (hs : ClockCountsTicks s) (h : exec i s = .next t) :
    ClockCountsTicks t := by
  cases i with
  | tick => cases h; exact tick_clockCountsTicks hs
  | edgeA => cases h; exact edge_clockCountsTicks hardware .btnA hs
  | edgeB => cases h; exact edge_clockCountsTicks hardware .btnB hs
  | iter | adcDone | txDone => exact exec_mainLoop_clockCountsTicks rfl hs h

/-- Settles O54: a reset clears Clock and the trace together, and every event keeps R101. -/
theorem stepKeepsClockCount : Obligations.StepKeepsClockCount := fun _ _ hs h =>
  stepBy_keeps ClockCountsTicks (inputs := fun _ _ hs => hs) (reset := fun _ _ => rfl)
    (events := exec_clockCountsTicks) hs h

end Sys2Proof.Machine

/-! The debounced edge detector: what an edge event does on its two paths (R110), and who moves a button's gate (R115). -/

namespace Sys2Proof.Machine

/-- EDGE_b as one equation: beyond the debounce window the edge is recorded, within it only acknowledged (R110). -/
theorem edge_eq_ite {clockW rawW : Nat} (P : Config.Params) (x : Button) (s : State clockW rawW) :
    edge P x s =
      if P.debounceTime < elapsed s.clock (btn s x).lastRecordedTime then
        setBtn x (recordEdge s.clock (btn s x)) (emit (.edgeAck x) s)
      else emit (.edgeAck x) s := by
  obtain ⟨h, e⟩ | ⟨h, e⟩ := edge_cases P x s
  · rw [e, if_pos h]
  · rw [e, if_neg (Nat.not_lt.mpr h)]

/-- Settles O18: at 50 ms each button's edge is that equation. -/
theorem edgeDebounced : Obligations.EdgeDebounced :=
  ⟨rfl, rfl, fun s => ⟨rfl, rfl, congrArg Host.Outcome.next (edge_eq_ite hardware .btnA s),
    congrArg Host.Outcome.next (edge_eq_ite hardware .btnB s)⟩⟩

/-- EDGE_b moves no gate but its button's own, to Clock, and that only beyond the debounce window (R110, R115). -/
theorem edge_lastRecordedTime {clockW rawW : Nat} (P : Config.Params) (x y : Button) (s : State clockW rawW) :
    (btn (edge P x s) y).lastRecordedTime = (btn s y).lastRecordedTime ∨
    (x = y ∧ (btn (edge P x s) y).lastRecordedTime = s.clock ∧
      P.debounceTime < elapsed (btn (edge P x s) y).lastRecordedTime (btn s y).lastRecordedTime) := by
  obtain ⟨hgap, e⟩ | ⟨-, e⟩ := edge_cases P x s <;> rw [e]
  · by_cases hy : y = x
    · subst hy
      rw [btn_setBtn_same]
      exact .inr ⟨rfl, rfl, hgap⟩
    · exact .inl (by rw [btn_setBtn_other _ _ _ _ hy, btn_emit])
  · exact .inl (by rw [btn_emit])

/-- The edge event of a button (R111, R112). -/
def edgeEvent : Button → Instr
  | .btnA => .edgeA
  | .btnB => .edgeB

/-- The edge events are the only writers of a gate (R113), so a gate that an event moves is its own button's. -/
theorem exec_lastRecordedTime {i : Instr} {s t : State} (h : exec i s = .next t) (y : Button) :
    (btn t y).lastRecordedTime = (btn s y).lastRecordedTime ∨
    (i = edgeEvent y ∧ (btn t y).lastRecordedTime = s.clock ∧
      50 < elapsed (btn t y).lastRecordedTime (btn s y).lastRecordedTime) := by
  cases i with
  | tick => cases h; exact .inl rfl
  | edgeA => cases h; exact (edge_lastRecordedTime hardware .btnA y s).imp_right (And.imp_left (congrArg edgeEvent))
  | edgeB => cases h; exact (edge_lastRecordedTime hardware .btnB y s).imp_right (And.imp_left (congrArg edgeEvent))
  | iter | adcDone | txDone => exact .inl ((exec_keepsInterruptSide rfl h).lastRecordedTime y)

/-- Settles O19: the law of one gate, for both buttons. -/
theorem acceptedEdgesFarApart : Obligations.AcceptedEdgesFarApart := fun _ _ _ h =>
  ⟨exec_lastRecordedTime h .btnA, exec_lastRecordedTime h .btnB⟩

end Sys2Proof.Machine

/-! What the snapshot does to the registers of a button that its classifier reads beside the edge time (R190). -/

namespace Sys2Proof.Machine

variable {clockW : Nat}

@[simp] theorem snapshotBtn_pendingClickTime (r : ButtonRegs clockW) :
    (snapshotBtn r).pendingClickTime = r.pendingClickTime := by unfold snapshotBtn; split <;> rfl

@[simp] theorem snapshotBtn_edgeSeen (r : ButtonRegs clockW) : (snapshotBtn r).edgeSeen = r.pressed := by
  cases h : r.pressed
  · rw [snapshotBtn_released h]
  · rw [snapshotBtn_pressed h]

end Sys2Proof.Machine

/-! R137: while Clock has not wrapped, every time stamp is behind the reading of Clock that came after it. -/

namespace Sys2Proof.Machine

variable {clockW rawW : Nat}

/-- What R137 says of a state whose Clock has not wrapped, and what a running loop keeps of it. -/
structure StampsOrdered (s : State clockW rawW) : Prop where
  now : s.now ≤ s.clock
  lastSampleTime : s.lastSampleTime ≤ s.now
  button : ∀ x, StampsBehind s (btn s x)

theorem stampsInOrder_iff (s : State clockW rawW) :
    StampsInOrder s ↔ (tickCount s.trace < 2 ^ clockW → StampsOrdered s) :=
  imp_congr_right fun _ =>
    ⟨fun ⟨hnow, hsample, hA, hB⟩ => ⟨hnow, hsample, fun x => by cases x; exacts [hA, hB]⟩,
      fun ⟨hnow, hsample, hbtn⟩ => ⟨hnow, hsample, hbtn .btnA, hbtn .btnB⟩⟩

/-- R137 looks at the time stamps alone. -/
theorem StampsOrdered.of_eq {s t : State clockW rawW} (hs : StampsOrdered s) (hclock : t.clock = s.clock)
    (hnow : t.now = s.now) (hsample : t.lastSampleTime = s.lastSampleTime) (hbtn : ∀ x, btn t x = btn s x) :
    StampsOrdered t where
  now := by rw [hnow, hclock]; exact hs.now
  lastSampleTime := by rw [hsample, hnow]; exact hs.lastSampleTime
  button x := by rw [StampsBehind, hbtn, hclock, hnow]; exact hs.button x

theorem emit_stampsOrdered (o : OutEvent) {s : State clockW rawW} (hs : StampsOrdered s) : StampsOrdered (emit o s) :=
  hs.of_eq rfl rfl rfl (by simp)

theorem setStage_stampsOrdered (v : Stage) {s : State clockW rawW} (hs : StampsOrdered s) :
    StampsOrdered (setStage v s) :=
  hs.of_eq rfl rfl rfl (by simp)

theorem emitLine_stampsOrdered (line : List Byte) {s : State clockW rawW} (hs : StampsOrdered s) :
    StampsOrdered (emitLine line s) :=
  hs.of_eq rfl rfl rfl (by simp)

/-- Registers of a button that are behind may replace its own. -/
theorem setBtn_stampsOrdered (x : Button) {r : ButtonRegs clockW} {s : State clockW rawW} (hs : StampsOrdered s)
    (hr : StampsBehind s r) : StampsOrdered (setBtn x r s) where
  now := by simpa using hs.now
  lastSampleTime := by simpa using hs.lastSampleTime
  button y := by
    rw [StampsBehind, setBtn_clock, setBtn_now]
    by_cases hy : y = x
    · subst hy; rw [btn_setBtn_same]; exact hr
    · rw [btn_setBtn_other _ _ _ _ hy]; exact hs.button y

/-! ### The interrupt events -/

/-- While TICKs are few enough that Clock has not wrapped, the next Clock is not behind this one (R15, R101). -/
theorem ClockCountsTicks.le_incW {s : State clockW rawW} (hs : ClockCountsTicks s)
    (hw : tickCount s.trace + 1 < 2 ^ clockW) : s.clock ≤ incW s.clock := by
  have hclock : s.clock.toNat = tickCount s.trace := by
    rw [ClockCountsTicks] at hs
    rw [hs, BitVec.toNat_ofNat, Nat.mod_eq_of_lt (by omega)]
  have hone : (1 : TimeStamp clockW).toNat = 1 := Nat.mod_eq_of_lt (show 1 < 2 ^ clockW by omega)
  rw [incW, BitVec.le_def, BitVec.toNat_add_of_lt (by omega)]
  exact Nat.le_add_right _ _

/-- A TICK writes Clock alone (R100). -/
theorem tick_stampsOrdered {s : State clockW rawW} (hs : StampsOrdered s) (h : s.clock ≤ incW s.clock) :
    StampsOrdered (tick s) where
  now := BitVec.le_trans hs.now h
  lastSampleTime := hs.lastSampleTime
  button x := by
    obtain ⟨hpress, hedge, hpending⟩ := hs.button x
    cases x <;> exact ⟨BitVec.le_trans hpress h, hedge, hpending⟩

/-- An accepted edge writes Clock as its press time (R110). -/
theorem edge_stampsOrdered (P : Config.Params) (x : Button) {s : State clockW rawW} (hs : StampsOrdered s) :
    StampsOrdered (edge P x s) := by
  have hemit := emit_stampsOrdered (.edgeAck x) hs
  obtain ⟨-, hedge, hpending⟩ := hs.button x
  obtain ⟨-, e⟩ | ⟨-, e⟩ := edge_cases P x s <;> rw [e]
  · exact setBtn_stampsOrdered x hemit ⟨BitVec.le_refl _, hedge, hpending⟩
  · exact hemit

/-! ### The main-loop events -/

/-- The snapshot reads Clock into `now`, and the edge times it copies are press times (R190). -/
theorem iterStart_stampsOrdered {s : State clockW rawW} (hs : StampsOrdered s) : StampsOrdered (iterStart s) where
  now := BitVec.le_refl _
  lastSampleTime := BitVec.le_trans hs.lastSampleTime hs.now
  button x := by
    obtain ⟨hpress, hedge, hpending⟩ := hs.button x
    rw [StampsBehind, btn_iterStart, snapshotBtn_pressTime, snapshotBtn_edgeTime, snapshotBtn_pendingClickTime]
    refine ⟨hpress, ?_, BitVec.le_trans hpending hs.now⟩
    split
    exacts [hpress, BitVec.le_trans hedge hs.now]

theorem Resumes.stampsOrdered {i : Instr} {s u : State} (hr : Resumes s i u) (hs : StampsOrdered s) :
    StampsOrdered u := by
  cases hr with
  | iter => exact iterStart_stampsOrdered hs
  | adcDone raw => exact hs.of_eq (by rw [deliver_eq]) (by rw [deliver_eq]) (by rw [deliver_eq]) (by simp)
  | txDone => exact hs.of_eq rfl rfl rfl (by simp)

/-- A stage action writes `now` as the sample time (R150), and as a pending click the edge time or 0 (R131, R132). -/
theorem stageAction_stampsOrdered (P : Config.Params) {s : State clockW rawW} (hs : StampsOrdered s) :
    StampsOrdered (stageAction P s) := by
  have hzero : (0 : TimeStamp clockW) ≤ s.now := by simp [BitVec.le_def]
  obtain e | ⟨-, e⟩ | ⟨x, -, e⟩ | ⟨x, -, e⟩ := stageAction_cases P s <;> rw [e]
  · exact hs
  · obtain ⟨-, e⟩ | ⟨-, e⟩ := analogCheck_cases P s <;> rw [e]
    · have hsample : StampsOrdered { s with lastSampleTime := s.now } :=
        ⟨hs.now, BitVec.le_refl _, fun x => by cases x; exacts [hs.button .btnA, hs.button .btnB]⟩
      exact setStage_stampsOrdered _ (emit_stampsOrdered _ hsample)
    · exact setStage_stampsOrdered _ hs
  · obtain ⟨hpress, hedge, -⟩ := hs.button x
    obtain ⟨-, e⟩ | ⟨-, -, e⟩ | ⟨-, -, e⟩ := clsEdge_cases P x s <;> rw [e]
    · exact setStage_stampsOrdered _ hs
    · exact emitLine_stampsOrdered _ (setStage_stampsOrdered _ (setBtn_stampsOrdered x hs ⟨hpress, hedge, hzero⟩))
    · exact setStage_stampsOrdered _ (setBtn_stampsOrdered x hs ⟨hpress, hedge, hedge⟩)
  · obtain ⟨hpress, hedge, -⟩ := hs.button x
    obtain ⟨-, e⟩ | ⟨-, e⟩ := clsTo_cases P x s <;> rw [e]
    · exact emitLine_stampsOrdered _ (setStage_stampsOrdered _ (setBtn_stampsOrdered x hs ⟨hpress, hedge, hzero⟩))
    · exact setStage_stampsOrdered _ hs

/-- A main-loop event outputs no TickAck, so Clock has not wrapped after it exactly where it had not before. -/
theorem exec_mainLoop_stampsInOrder {i : Instr} {s t : State} (hi : contextOf i = .mainLoop) (hs : StampsInOrder s)
    (h : exec i s = .next t) : StampsInOrder t := by
  rw [stampsInOrder_iff] at hs ⊢
  rw [(exec_mainLoop_oneOutputSince hi h).tickCount_eq]
  intro hw
  obtain ⟨rfl, -⟩ | ⟨u, hr, hrun⟩ := exec_mainLoop_cases hi h
  · exact hs hw
  · obtain ⟨ht, -⟩ := runLoop_keeps hardware StampsOrdered
      (fun _ hv _ _ => stageAction_stampsOrdered hardware hv) u t hr.stage_ne_unused (hr.stampsOrdered (hs hw)) hrun
    exact ht

theorem tick_stampsInOrder {s : State clockW rawW} (hc : ClockCountsTicks s) (hs : StampsInOrder s) :
    StampsInOrder (tick s) := by
  have hcount : tickCount (tick s).trace = tickCount s.trace + 1 := tickCount_append s.trace [.tickAck]
  rw [stampsInOrder_iff] at hs ⊢
  rw [hcount]
  exact fun hw => tick_stampsOrdered (hs (Nat.lt_of_succ_lt hw)) (hc.le_incW hw)

theorem edge_stampsInOrder (P : Config.Params) (x : Button) {s : State clockW rawW} (hs : StampsInOrder s) :
    StampsInOrder (edge P x s) := by
  have hcount : tickCount (edge P x s).trace = tickCount s.trace := by
    rw [edge_eq]; exact tickCount_append s.trace [.edgeAck x]
  rw [stampsInOrder_iff] at hs ⊢
  rw [hcount]
  exact fun hw => edge_stampsOrdered P x (hs hw)

theorem exec_stampsInOrder (i : Instr) (s t : State) (hc : ClockCountsTicks s) (hs : StampsInOrder s)
    (h : exec i s = .next t) : StampsInOrder t := by
  cases i with
  | tick => cases h; exact tick_stampsInOrder hc hs
  | edgeA => cases h; exact edge_stampsInOrder hardware .btnA hs
  | edgeB => cases h; exact edge_stampsInOrder hardware .btnB hs
  | iter | adcDone | txDone => exact exec_mainLoop_stampsInOrder rfl hs h

/-- At reset every time stamp is Clock's own value, 0 (R241). -/
theorem reset_stampsOrdered (s : State clockW rawW) (level : Bool) :
    StampsOrdered { applyReset s with rst := level } :=
  ⟨BitVec.le_refl _, BitVec.le_refl _,
    fun x => by cases x <;> exact ⟨BitVec.le_refl _, BitVec.le_refl _, BitVec.le_refl _⟩⟩

/-- Settles O55: a reset sets every time stamp to 0, and every event keeps the order, a TICK by R101. -/
theorem stepKeepsStampOrder : Obligations.StepKeepsStampOrder := fun _ _ hc hs h =>
  stepBy_keeps (fun s => ClockCountsTicks s ∧ StampsInOrder s) (inputs := fun _ _ hs => hs)
    (reset := fun s level => ⟨rfl, (stampsInOrder_iff _).mpr fun _ => reset_stampsOrdered s level⟩)
    (events := fun i s t ⟨hc, hs⟩ h => ⟨exec_clockCountsTicks i s t hc h, exec_stampsInOrder i s t hc hs h⟩)
    ⟨hc, hs⟩ h

end Sys2Proof.Machine

/-! The click classifiers: the paths of either button through its two stages (R130 to R132), and the iterations that
take them with no sample due (R190, R191). -/

namespace Sys2Proof.Machine

/-- Settles O59: the paths of CLS_b_EDGE and CLS_b_TO, with the stages and bytes of each button written out. -/
theorem classifierActions : Obligations.ClassifierActions := by
  intro s x
  refine ⟨fun he => ?_, fun he hp hg => ?_, fun he hp => ?_, fun hp hg => ?_, fun hp => ?_⟩
  · rw [clsEdge_unseen he]; cases x <;> rfl
  · rw [clsEdge_double (P := hardware) he hp hg]; cases x <;> rfl
  · rw [clsEdge_window (P := hardware) he hp]; cases x <;> rfl
  · rw [clsTo_fires (P := hardware) hp hg]; cases x <;> rfl
  · rw [clsTo_waits (P := hardware) hp]; cases x <;> rfl

section
variable {clockW rawW : Nat} {P : Config.Params} {x : Button} {s : State clockW rawW}

/-! ### A loop that comes to a button's stages -/

/-- The stage in which a button's edge is consumed (R131, R192). -/
def edgeStage : Button → Stage
  | .btnA => .clsAEdge
  | .btnB => .clsBEdge

/-- One turn at CLS_b_EDGE (R191). -/
theorem runLoop_edgeStage (ht : s.txBusy = false) (hstage : s.stage = edgeStage x) :
    runLoop P s = runLoop P (clsEdge P x s) := by
  cases x
  · exact runLoop_clsAEdge ht hstage
  · exact runLoop_clsBEdge ht hstage

/-- One turn at CLS_b_TO (R191). -/
theorem runLoop_afterEdge (ht : s.txBusy = false) :
    runLoop P (setStage (afterEdge x) s) = runLoop P (clsTo P x (setStage (afterEdge x) s)) := by
  cases x
  · exact runLoop_clsATo ht rfl
  · exact runLoop_clsBTo ht rfl

/-- A loop that has sent a line waits for it (R170, R191). -/
theorem runLoop_emitLine (line : List Byte) : runLoop P (emitLine line s) = .next (emitLine line s) :=
  runLoop_blocked P _ ((loopBlocked_iff _).mpr (.inl rfl))

theorem runLoop_edgeStage_unseen (ht : s.txBusy = false) (hstage : s.stage = edgeStage x)
    (he : (btn s x).edgeSeen = false) : runLoop P s = runLoop P (setStage (afterEdge x) s) := by
  rw [runLoop_edgeStage ht hstage, clsEdge_unseen he]

theorem runLoop_edgeStage_double (ht : s.txBusy = false) (hstage : s.stage = edgeStage x)
    (he : (btn s x).edgeSeen = true) (hp : (btn s x).pendingClickTime ≠ 0)
    (hg : elapsed (btn s x).edgeTime (btn s x).pendingClickTime < P.doubleClickTime) :
    runLoop P s = .next (emitLine (doubleLine x)
      (setStage (afterEdge x) (setBtn x (consumeEdge 0 (btn s x)) s))) := by
  rw [runLoop_edgeStage ht hstage, clsEdge_double he hp hg, runLoop_emitLine]

theorem runLoop_edgeStage_window (ht : s.txBusy = false) (hstage : s.stage = edgeStage x)
    (he : (btn s x).edgeSeen = true)
    (hp : (btn s x).pendingClickTime = 0 ∨
      P.doubleClickTime ≤ elapsed (btn s x).edgeTime (btn s x).pendingClickTime) :
    runLoop P s =
      runLoop P (setStage (afterEdge x) (setBtn x (consumeEdge (btn s x).edgeTime (btn s x)) s)) := by
  rw [runLoop_edgeStage ht hstage, clsEdge_window he hp]

theorem runLoop_afterEdge_waits (ht : s.txBusy = false)
    (hp : (btn s x).pendingClickTime = 0 ∨ elapsed s.now (btn s x).pendingClickTime ≤ P.doubleClickTime) :
    runLoop P (setStage (afterEdge x) s) = runLoop P (setStage (afterTo x) s) := by
  rw [runLoop_afterEdge ht, clsTo_waits (by simpa using hp)]
  rfl

theorem runLoop_afterEdge_fires (ht : s.txBusy = false) (hp : (btn s x).pendingClickTime ≠ 0)
    (hg : P.doubleClickTime < elapsed s.now (btn s x).pendingClickTime) :
    runLoop P (setStage (afterEdge x) s) = .next (emitLine (timeoutLine x)
      (setStage (afterTo x) (setBtn x { btn s x with pendingClickTime := 0 } s))) := by
  rw [runLoop_afterEdge ht, clsTo_fires (by simpa using hp) (by simpa using hg), runLoop_emitLine]
  cases x <;> rfl

/-- A button with no edge and no click timed out is passed (R136). -/
theorem runLoop_edgeStage_quiet (ht : s.txBusy = false) (hstage : s.stage = edgeStage x)
    (he : (btn s x).edgeSeen = false)
    (hp : (btn s x).pendingClickTime = 0 ∨ elapsed s.now (btn s x).pendingClickTime ≤ P.doubleClickTime) :
    runLoop P s = runLoop P (setStage (afterTo x) s) := by
  rw [runLoop_edgeStage_unseen ht hstage he, runLoop_afterEdge_waits ht hp]

/-- After B the iteration has ended (R191). -/
theorem runLoop_afterTo_btnB : runLoop P (setStage (afterTo .btnB) s) = .next (setStage .idle s) :=
  runLoop_blocked P _ ((loopBlocked_iff _).mpr (.inr (.inl rfl)))

/-- The snapshot of an iteration at the stage that consumes the button's edge (R190, R192). -/
def iterAt (x : Button) (s : State clockW rawW) : State clockW rawW := setStage (edgeStage x) (snapshot s)

@[simp] theorem iterAt_txBusy : (iterAt x s).txBusy = s.txBusy := rfl
@[simp] theorem btn_iterAt (y : Button) : btn (iterAt x s) y = snapshotBtn (btn s y) := by cases y <;> rfl

/-- The snapshot with the edge of a pressed button consumed, its classifier holding `p` (R131, R190). -/
def edgeConsumed (x : Button) (p : TimeStamp clockW) (s : State clockW rawW) : State clockW rawW :=
  setBtn x
    { btn s x with pressed := false, edgeSeen := false, edgeTime := (btn s x).pressTime, pendingClickTime := p }
    (snapshot s)

@[simp] theorem edgeConsumed_now (p : TimeStamp clockW) : (edgeConsumed x p s).now = s.clock := setBtn_now ..

@[simp] theorem edgeConsumed_txBusy (p : TimeStamp clockW) : (edgeConsumed x p s).txBusy = s.txBusy := setBtn_txBusy ..

@[simp] theorem edgeConsumed_pendingClickTime (p : TimeStamp clockW) :
    (btn (edgeConsumed x p s) x).pendingClickTime = p := by
  simp [edgeConsumed]

/-- CLS_b_EDGE on a pressed button's snapshot (R131). -/
theorem setBtn_consumeEdge_iterAt (p : TimeStamp clockW) (v : Stage) (h : (btn s x).pressed = true) :
    setStage v (setBtn x (consumeEdge p (btn (iterAt x s) x)) (iterAt x s)) = setStage v (edgeConsumed x p s) := by
  rw [btn_iterAt, snapshotBtn_pressed h]
  cases x <;> rfl

end

/-! ### The iterations with no sample due -/

variable {s : State} {x : Button}

/-- A button in whose two stages this iteration does and sends nothing (R131, R132, R136). -/
def Quiet (s : State) (x : Button) : Prop :=
  (btn s x).pressed = false ∧
    ((btn s x).pendingClickTime = 0 ∨ elapsed s.clock (btn s x).pendingClickTime ≤ 500)

theorem Quiet.snapshotBtn (h : Quiet s x) : (snapshotBtn (btn s x)).edgeSeen = false ∧
    ((snapshotBtn (btn s x)).pendingClickTime = 0 ∨
      elapsed s.clock (snapshotBtn (btn s x)).pendingClickTime ≤ 500) := by
  rw [snapshotBtn_edgeSeen, snapshotBtn_pendingClickTime]
  exact h

/-- This ITER comes to the button's edge stage with nothing done or sent since its snapshot (R190 to R192). -/
def ReachesButton (s : State) (x : Button) : Prop :=
  (iterAt x s).txBusy = false ∧ exec .iter s = runLoop hardware (iterAt x s)

/-- With no sample due the iteration goes on with A (R150). -/
theorem reachesButton_btnA (hstage : s.stage = .idle) (ht : s.txBusy = false)
    (hdue : elapsed s.clock s.lastSampleTime < 100) : ReachesButton s .btnA := by
  refine ⟨ht, ?_⟩
  obtain ⟨hl, -⟩ | ⟨-, eiter⟩ := iterWith_cases hardware s
  · simp [loopIdle, hstage, ht] at hl
  obtain ⟨hge, -⟩ | ⟨-, eanalog⟩ := analogCheck_cases hardware (iterStart s)
  · exact absurd hge (Nat.not_le.mpr hdue)
  rw [exec, execIter, eiter, runLoop_analog (s := iterStart s) ht rfl, eanalog]
  rfl

/-- Past a quiet A, it goes on with B (R192). -/
theorem ReachesButton.btnB (h : ReachesButton s .btnA) (hA : Quiet s .btnA) : ReachesButton s .btnB := by
  obtain ⟨ht, e⟩ := h
  obtain ⟨he, hp⟩ := hA.snapshotBtn
  exact ⟨ht, e.trans (runLoop_edgeStage_quiet (x := .btnA) ht rfl he hp)⟩

/-- Past A, a quiet B ends it (R193). -/
theorem runLoop_afterTo_btnA (p : TimeStamp) (ht : s.txBusy = false) (hB : Quiet s .btnB) :
    runLoop hardware (setStage (afterTo .btnA) (edgeConsumed .btnA p s)) =
      .next (setStage .idle (edgeConsumed .btnA p s)) := by
  obtain ⟨he, hp⟩ := hB.snapshotBtn
  calc runLoop hardware (setStage (afterTo .btnA) (edgeConsumed .btnA p s))
    _ = runLoop hardware (setStage (afterTo .btnB) (edgeConsumed .btnA p s)) :=
      runLoop_edgeStage_quiet (x := .btnB) (by simpa using ht) rfl he hp
    _ = .next (setStage .idle (edgeConsumed .btnA p s)) := runLoop_afterTo_btnB

section
variable (h : ReachesButton s x)
include h

/-- An edge that completes a double-click (R131). -/
theorem ReachesButton.double (hpressed : (btn s x).pressed = true) (hp : (btn s x).pendingClickTime ≠ 0)
    (hg : elapsed (btn s x).pressTime (btn s x).pendingClickTime < 500) :
    exec .iter s = .next (emitLine (doubleLine x) (setStage (afterEdge x) (edgeConsumed x 0 s))) := by
  obtain ⟨ht, e⟩ := h
  rw [e, ← setBtn_consumeEdge_iterAt 0 _ hpressed]
  apply runLoop_edgeStage_double ht rfl <;> rw [btn_iterAt, snapshotBtn_pressed hpressed]
  exacts [hp, hg]

/-- A click timed out where there is no edge (R132). -/
theorem ReachesButton.timeout (hpressed : (btn s x).pressed = false) (hp : (btn s x).pendingClickTime ≠ 0)
    (hg : 500 < elapsed s.clock (btn s x).pendingClickTime) :
    exec .iter s = .next (emitLine (timeoutLine x)
      (setStage (afterTo x) (setBtn x { btn s x with edgeSeen := false, pendingClickTime := 0 } (snapshot s)))) := by
  obtain ⟨ht, e⟩ := h
  have hbtn : btn (iterAt x s) x = { btn s x with edgeSeen := false } := by
    rw [btn_iterAt, snapshotBtn_released hpressed]
  rw [e, runLoop_edgeStage_unseen (s := iterAt x s) ht rfl (by rw [hbtn]),
    runLoop_afterEdge_fires (s := iterAt x s) ht (by rwa [hbtn]) (by rwa [hbtn]), hbtn]
  cases x <;> rfl

/-- An edge that completes no double-click: the loop comes to the timeout check with a new click (R131). -/
theorem ReachesButton.newClick (hpressed : (btn s x).pressed = true)
    (hp : (btn s x).pendingClickTime = 0 ∨ 500 ≤ elapsed (btn s x).pressTime (btn s x).pendingClickTime) :
    exec .iter s = runLoop hardware (setStage (afterEdge x) (edgeConsumed x (btn s x).pressTime s)) := by
  obtain ⟨ht, e⟩ := h
  have hbtn : btn (iterAt x s) x =
      { btn s x with edgeSeen := true, edgeTime := (btn s x).pressTime, pressed := false } := by
    rw [btn_iterAt, snapshotBtn_pressed hpressed]
  rw [e, ← setBtn_consumeEdge_iterAt _ _ hpressed,
    runLoop_edgeStage_window (x := x) ht rfl (by rw [hbtn]) (by rwa [hbtn]), hbtn]

/-- A new click that is not late is kept (R132), and one at time stamp 0 is lost (R135): no line either way. -/
theorem ReachesButton.newClick_waits (hpressed : (btn s x).pressed = true)
    (hp : (btn s x).pendingClickTime = 0 ∨ 500 ≤ elapsed (btn s x).pressTime (btn s x).pendingClickTime)
    (hlate : (btn s x).pressTime = 0 ∨ elapsed s.clock (btn s x).pressTime ≤ 500) :
    exec .iter s = runLoop hardware (setStage (afterTo x) (edgeConsumed x (btn s x).pressTime s)) := by
  rw [h.newClick hpressed hp, runLoop_afterEdge_waits (by simpa using h.1) (by simpa using hlate)]

/-- A new click that is late times out at once (R132). -/
theorem ReachesButton.newClick_fires (hpressed : (btn s x).pressed = true)
    (hp : (btn s x).pendingClickTime = 0 ∨ 500 ≤ elapsed (btn s x).pressTime (btn s x).pendingClickTime)
    (hzero : (btn s x).pressTime ≠ 0) (hlate : 500 < elapsed s.clock (btn s x).pressTime) :
    exec .iter s = .next (emitLine (timeoutLine x) (setStage (afterTo x) (edgeConsumed x 0 s))) := by
  rw [h.newClick hpressed hp,
    runLoop_afterEdge_fires (by simpa using h.1) (by simpa using hzero) (by simpa using hlate)]
  cases x <;> rfl

end

/-- Settles O24: the iteration comes to the button, whose edge completes the double-click. -/
theorem doubleClickSendsItsLine : Obligations.DoubleClickSendsItsLine := by
  intro s hstage ht hdue
  have hreach := reachesButton_btnA hstage ht hdue
  refine ⟨hreach.double, fun hA hpA hpressed hp hg => ?_⟩
  rw [(hreach.btnB ⟨hA, hpA⟩).double hpressed hp hg, edgeConsumed, snapshot, snapshotBtn_released hA]
  rfl

/-- Settles O25: the iteration comes to the button, whose click has timed out. -/
theorem timeoutSendsItsLine : Obligations.TimeoutSendsItsLine := by
  intro s hstage ht hdue
  have hreach := reachesButton_btnA hstage ht hdue
  refine ⟨hreach.timeout, fun hA hpA hpressed hp hg => ?_⟩
  rw [(hreach.btnB ⟨hA, hpA⟩).timeout hpressed hp hg, snapshot, snapshotBtn_released hA, hstage]
  rfl

/-- Settles O26: the new click is kept, and the other button is quiet. -/
theorem edgeStartsOrRestartsWindow : Obligations.EdgeStartsOrRestartsWindow := by
  intro s hstage ht hdue
  have hreach := reachesButton_btnA hstage ht hdue
  refine ⟨fun hpressed hp hlate hB hpB => ?_, fun hpressed hp hlate hA hpA => ?_⟩
  · rw [hreach.newClick_waits hpressed hp hlate, runLoop_afterTo_btnA _ ht ⟨hB, hpB⟩, edgeConsumed, snapshot,
      snapshotBtn_released hB, hstage]
    rfl
  · rw [(hreach.btnB ⟨hA, hpA⟩).newClick_waits hpressed hp hlate, runLoop_afterTo_btnB, edgeConsumed, snapshot,
      snapshotBtn_released hA, hstage]
    rfl

/-- Settles O27: the new click is late for the timeout check that follows. -/
theorem lateClickTimesOutAtOnce : Obligations.LateClickTimesOutAtOnce := by
  intro s hstage ht hdue
  have hreach := reachesButton_btnA hstage ht hdue
  refine ⟨fun hpressed hp hzero hlate => ?_, fun hA hpA hpressed hp hzero hlate => ?_⟩
  · exact ⟨_, hreach.newClick_fires hpressed hp hzero hlate, rfl, rfl, rfl, rfl⟩
  · exact ⟨_, (hreach.btnB ⟨hA, hpA⟩).newClick_fires hpressed hp hzero hlate, rfl, rfl, rfl, rfl⟩

end Sys2Proof.Machine

/-! The delivery of an analog result: when it sends, what it leaves as the last sent value, and how the wait for it ends
(R151 to R156). -/

namespace Sys2Proof.Machine

/-- Settles O31: the quotient does not wrap, and the two bounds are arithmetic. -/
theorem scalingLaw : Obligations.ScalingLaw := by
  intro raw
  have hquot : (scaled hardware raw).toNat = raw.toNat / 50 := scaled_toNat hardware raw
  have hraw := raw.isLt
  rw [hquot]
  omega

section
variable {clockW rawW : Nat} {P : Config.Params} {s : State clockW rawW}

/-- A value is sent unless one was sent before and it is equal (R151). -/
theorem mustSend_iff (v : Raw rawW) :
    mustSend v s = true ↔ s.lastSentValid = false ∨ v.toNat ≠ s.lastSentValue.toNat := by
  simp [mustSend, BitVec.toNat_inj]

theorem deliver_sends {raw : Raw rawW} (h : mustSend (scaled P raw) s = true) :
    deliver P raw s = emitLine (valueLine (scaled P raw))
      { setStage .clsAEdge s with lastSentValue := scaled P raw, lastSentValid := true } :=
  if_pos h

theorem deliver_suppresses {raw : Raw rawW} (h : mustSend (scaled P raw) s = false) :
    deliver P raw s = setStage .clsAEdge s :=
  if_neg (by simp [h])

/-- Sent or suppressed, the value delivered is the last sent value afterwards (R153). -/
theorem deliver_lastSent (raw : Raw rawW) :
    (deliver P raw s).lastSentValid = true ∧ (deliver P raw s).lastSentValue = scaled P raw := by
  cases h : mustSend (scaled P raw) s with
  | true => rw [deliver_sends h]; exact ⟨rfl, rfl⟩
  | false =>
    obtain ⟨hvalid, hvalue⟩ : s.lastSentValid = true ∧ scaled P raw = s.lastSentValue := by
      simpa [mustSend] using h
    rw [deliver_suppresses h]
    exact ⟨hvalid, hvalue.symm⟩

/-- From A on, a loop in which neither classifier has an edge or a click ends the iteration (R136, R191). -/
theorem runLoop_clsAEdge_quiet (ht : s.txBusy = false) (hstage : s.stage = .clsAEdge)
    (hedge : ∀ x, (btn s x).edgeSeen = false) (hclick : ∀ x, (btn s x).pendingClickTime = 0) :
    runLoop P s = .next (setStage .idle s) :=
  calc runLoop P s
    _ = runLoop P (setStage (afterTo .btnA) s) :=
      runLoop_edgeStage_quiet ht hstage (hedge .btnA) (.inl (hclick .btnA))
    _ = runLoop P (setStage (afterTo .btnB) s) :=
      runLoop_edgeStage_quiet (x := .btnB) ht rfl (hedge .btnB) (.inl (hclick .btnB))
    _ = .next (setStage .idle s) := runLoop_afterTo_btnB

end

variable {s t : State} {i : Instr}

/-- In this hardware the value compared is `raw div 50` (R151, R152). -/
theorem mustSend_scaled_iff (raw : Raw) :
    mustSend (scaled hardware raw) s = true ↔
      s.lastSentValid = false ∨ raw.toNat / 50 ≠ s.lastSentValue.toNat := by
  rw [mustSend_iff, scaled_toNat, hardware_scaleDiv]

/-- In the wait ADC_DONE is delivered, and the loop resumes (R151). -/
theorem exec_adcDone_delivers (raw : Raw) (h : s.stage = .adcWait) :
    exec (.adcDone raw) s = runLoop hardware (deliver hardware raw s) :=
  if_pos ((adcBusy_iff s).mpr h)

/-- Settles O28: a value that must be sent is, and the loop waits for its line. -/
theorem adcDoneTransmits : Obligations.AdcDoneTransmits := by
  intro s raw hwait hnew
  rw [exec_adcDone_delivers raw hwait, deliver_sends ((mustSend_scaled_iff raw).mpr hnew), runLoop_emitLine]
  rfl

/-- Settles O29: a value that need not be sent only moves the stage on to a loop that may have nothing to do. -/
theorem adcDoneSuppressesUnchanged : Obligations.AdcDoneSuppressesUnchanged := by
  intro s raw hwait hvalid hsame
  have hmust : mustSend (scaled hardware raw) s = false := by
    rw [← Bool.not_eq_true, mustSend_scaled_iff]
    simp [hvalid, hsame]
  have hexec : exec (.adcDone raw) s = runLoop hardware (setStage .clsAEdge s) := by
    rw [exec_adcDone_delivers raw hwait, deliver_suppresses hmust]
  refine ⟨hexec, fun ht hedgeA hedgeB hclickA hclickB => hexec.trans ?_⟩
  exact runLoop_clsAEdge_quiet ht rfl (fun x => by cases x; exacts [hedgeA, hedgeB])
    (fun x => by cases x; exacts [hclickA, hclickB])

/-- A delivered ADC_DONE is answered, with its value the last sent one (R153). -/
theorem exec_adcDone_lastSent (raw : Raw) (h : s.stage = .adcWait) :
    ∃ t, exec (.adcDone raw) s = .next t ∧ t.lastSentValid = true ∧ t.lastSentValue = scaled hardware raw := by
  have hstage : (deliver hardware raw s).stage ≠ .unused := (Resumes.adcDone raw h).stage_ne_unused
  obtain ⟨t, hrun, -⟩ := runLoop_spec hardware (fun _ => True) (fun _ _ _ _ => trivial) _ hstage trivial
  obtain ⟨-, -, hvalue, hvalid, -⟩ := runLoop_frame hstage hrun
  obtain ⟨hvalid', hvalue'⟩ := deliver_lastSent (P := hardware) (s := s) raw
  exact ⟨t, (exec_adcDone_delivers raw h).trans hrun, hvalid.trans hvalid', hvalue.trans hvalue'⟩

/-- No event but a delivered ADC_DONE writes the last sent value (R153). -/
theorem exec_keeps_lastSent_of_not_delivered (hi : ∀ raw, i = .adcDone raw → s.stage ≠ .adcWait)
    (h : exec i s = .next t) : t.lastSentValid = s.lastSentValid ∧ t.lastSentValue = s.lastSentValue := by
  cases i with
  | tick | edgeA | edgeB =>
    have k := exec_keepsMainLoopSide rfl h
    exact ⟨k.lastSentValid, k.lastSentValue⟩
  | iter | txDone => exact (exec_keeps_lastSent rfl (by simp) h).symm
  | adcDone raw =>
    rw [exec_adcDone_ignored raw (hi raw rfl)] at h
    cases h
    exact ⟨rfl, rfl⟩

/-- Settles O32: the delivery's value outlives the loop, and the other events keep what they find. -/
theorem lastSentIsLastDelivered : Obligations.LastSentIsLastDelivered := by
  refine ⟨fun s raw hwait => ?_, fun _ _ _ => exec_keeps_lastSent_of_not_delivered⟩
  obtain ⟨t, hexec, hvalid, hvalue⟩ := exec_adcDone_lastSent raw hwait
  exact ⟨t, hexec, hvalid, by rw [hvalue, scaled_toNat, hardware_scaleDiv]⟩

/-- In the wait ITER is held (R156, R194). -/
theorem not_accepts_iter_of_adcWait (hwait : s.stage = .adcWait) : accepts s .iter = false :=
  accepts_iter_of_busy (.inl (by simp [hwait]))

/-- In the wait, every event but ADC_DONE leaves the loop waiting (R156): the interrupts do not move it, ITER is held,
and a TX_DONE resumes a loop that is blocked. -/
theorem exec_keeps_adcWait (hwait : s.stage = .adcWait) (hi : ∀ raw, i ≠ .adcDone raw) (h : exec i s = .next t) :
    t.stage = .adcWait := by
  cases i with
  | tick | edgeA | edgeB => exact (exec_keepsMainLoopSide rfl h).stage.trans hwait
  | adcDone raw => exact absurd rfl (hi raw)
  | iter =>
    rw [exec_of_not_accepts (not_accepts_iter_of_adcWait hwait)] at h
    cases h
    exact hwait
  | txDone =>
    obtain ⟨rfl, -⟩ | ⟨u, hr, hrun⟩ := exec_mainLoop_cases rfl h
    · exact hwait
    · cases hr
      rw [runLoop_blocked hardware (clearTx s) ((loopBlocked_iff _).mpr (.inr (.inr hwait)))] at hrun
      cases hrun
      exact hwait

/-- Settles O39: the acceptance conditions at ADC_WAIT, and the stage each event leaves there. -/
theorem onlyAdcDoneLeavesWait : Obligations.OnlyAdcDoneLeavesWait := fun _ hwait =>
  ⟨⟨not_accepts_iter_of_adcWait hwait, rfl, rfl, rfl⟩, fun _ _ => exec_keeps_adcWait hwait⟩

/-- Settles O30: outside the wait ADC_DONE is ignored. -/
theorem adcDoneIgnoredOutsideWait : Obligations.AdcDoneIgnoredOutsideWait := fun _ raw => exec_adcDone_ignored raw

end Sys2Proof.Machine

/-! The event formatter: the bytes of its lines (R172 to R174), the grammar that every line sent belongs to (R171), and
the completion that ends a line (R175). -/

namespace Sys2Proof.Machine

/-! ### The grammar of the lines sent -/

section
variable {clockW rawW : Nat} {s t : State clockW rawW}

/-- R171 looks at the trace alone. -/
theorem LinesInGrammar.of_trace_eq (hs : LinesInGrammar s) (htrace : t.trace = s.trace) : LinesInGrammar t :=
  fun bytes hmem => hs bytes (htrace ▸ hmem)

/-- An output that is a line of the grammar, or none, can be appended (R171). -/
theorem LinesInGrammar.of_trace_append {o : OutEvent} (hs : LinesInGrammar s) (htrace : t.trace = s.trace ++ [o])
    (ho : ∀ bytes, o = .txLine bytes → GrammarLine rawW bytes) : LinesInGrammar t := by
  intro bytes hmem
  rw [htrace, List.mem_append, List.mem_singleton] at hmem
  obtain hold | hnew := hmem
  exacts [hs bytes hold, ho bytes hnew.symm]

end

/-- An interrupt sends no line, and a main-loop event at most one, of the grammar (R171). -/
theorem exec_linesInGrammar (i : Instr) (s t : State) (hs : LinesInGrammar s) (h : exec i s = .next t) :
    LinesInGrammar t := by
  obtain ⟨htick, hedgeA, hedgeB, hmain⟩ := oneOutputPerEvent i s t h
  cases i with
  | tick => exact hs.of_trace_append (htick rfl) (by simp)
  | edgeA => exact hs.of_trace_append (hedgeA rfl) (by simp)
  | edgeB => exact hs.of_trace_append (hedgeB rfl) (by simp)
  | iter | adcDone | txDone =>
    obtain htrace | ⟨-, htrace⟩ | ⟨line, hline, -, htrace⟩ := hmain rfl
    · exact hs.of_trace_eq htrace
    · exact hs.of_trace_append htrace (by simp)
    · exact hs.of_trace_append htrace (by simpa using hline)

/-- Settles O44: a reset empties the trace, and an event appends no line but one of the grammar. -/
theorem stepKeepsLineGrammar : Obligations.StepKeepsLineGrammar := fun _ _ hs h =>
  stepBy_keeps LinesInGrammar
    (inputs := fun _ _ hs => hs)
    (reset := fun _ _ => linesInGrammar_of_trace_nil rfl)
    (events := exec_linesInGrammar) hs h

/-! ### The bytes of the lines -/

/-- Settles O42: each line is its text and the terminator, written out. -/
theorem semanticLineBytes : Obligations.SemanticLineBytes := by
  unfold Obligations.SemanticLineBytes
  decide

/-- The code of a decimal digit (R173; log entry 9). -/
theorem digit_toNat {d : Nat} (h : d < 10) : (digit d).toNat = 0x30 + d :=
  Nat.mod_eq_of_lt (by omega)

/-- The digit of a number other than zero is not the ASCII zero. -/
theorem digit_ne_ascii_zero {d : Nat} (h : d < 10) (h0 : d ≠ 0) : digit d ≠ 0x30 := fun e => by
  have hn := congrArg BitVec.toNat e
  rw [digit_toNat h] at hn
  exact h0 (Nat.add_left_cancel hn)

/-- The number that decimal digits spell, most significant first (R173). -/
def decValue (digits : List Byte) : Nat := digits.foldl (fun n x => 10 * n + (x.toNat - 0x30)) 0

theorem decValue_digit {d : Nat} (h : d < 10) : decValue [digit d] = d := by
  simp [decValue, digit_toNat h]

/-- One more digit at the right. -/
theorem decValue_append_digit (digits : List Byte) {d : Nat} (h : d < 10) :
    decValue (digits ++ [digit d]) = 10 * decValue digits + d := by
  simp [decValue, digit_toNat h]

/-- The decimal text is made of digits (R173). -/
theorem mem_decDigits {n v : Nat} {x : Byte} (hx : x ∈ decDigits n v) : ∃ d < 10, x = digit d := by
  fun_induction decDigits n v with
  | case1 v => exact ⟨v % 10, Nat.mod_lt v (by decide), List.mem_singleton.mp hx⟩
  | case2 n v hv => exact ⟨v, hv, List.mem_singleton.mp hx⟩
  | case3 n v hv ih =>
    rw [List.mem_append, List.mem_singleton] at hx
    obtain hx | hx := hx
    exacts [ih hx, ⟨v % 10, Nat.mod_lt v (by decide), hx⟩]

/-- The decimal text of a number of at most `n + 1` digits spells it (R173). -/
theorem decValue_decDigits {n v : Nat} (h : v < 10 ^ (n + 1)) : decValue (decDigits n v) = v := by
  fun_induction decDigits n v with
  | case1 v => rw [decValue_digit (Nat.mod_lt v (by decide))]; omega
  | case2 n v hv => exact decValue_digit hv
  | case3 n v hv ih =>
    rw [decValue_append_digit _ (Nat.mod_lt v (by decide)), ih (by rw [pow_succ] at h; omega)]
    omega

/-- It has no leading zero, except where the number is zero (R173). -/
theorem decDigits_eq_cons {n v : Nat} (h : v < 10 ^ (n + 1)) (hv : v ≠ 0) :
    ∃ d xs, decDigits n v = digit d :: xs ∧ d < 10 ∧ d ≠ 0 := by
  fun_induction decDigits n v with
  | case1 v => exact ⟨v % 10, [], rfl, by omega, by omega⟩
  | case2 n v hlt => exact ⟨v, [], rfl, hlt, hv⟩
  | case3 n v hge ih =>
    obtain ⟨d, xs, e, hd⟩ := ih (by rw [pow_succ] at h; omega) (by omega)
    exact ⟨d, xs ++ [digit (v % 10)], by rw [e, List.cons_append], hd⟩

/-- A value of RAW_W bits has at most RAW_W + 1 digits. -/
theorem raw_lt_ten_pow {rawW : Nat} (v : Raw rawW) : v.toNat < 10 ^ (rawW + 1) :=
  calc v.toNat
    _ < 2 ^ rawW := v.isLt
    _ ≤ 10 ^ rawW := Nat.pow_le_pow_left (by decide) rawW
    _ ≤ 10 ^ (rawW + 1) := Nat.pow_le_pow_right (by decide) (Nat.le_succ rawW)

/-- Settles O43: the digits, the value and the first digit of the text by induction on its digits, and the examples by
evaluation. -/
theorem decimalText : Obligations.DecimalText := by
  refine ⟨fun v => ⟨fun x hx => ?_, decValue_decDigits (raw_lt_ten_pow v), fun hv => ?_⟩, by decide⟩
  · obtain ⟨d, hd, rfl⟩ := mem_decDigits hx
    rw [digit_toNat hd]
    omega
  · obtain ⟨d, xs, e, hd, h0⟩ := decDigits_eq_cons (raw_lt_ten_pow v) (by simpa [← BitVec.toNat_inj] using hv)
    exact ⟨digit d, xs, e, digit_ne_ascii_zero hd h0⟩

/-! ### The end of a line -/

/-- With a line outstanding TX_DONE completes it, and the loop resumes (R175). -/
theorem exec_txDone_resumes {s : State} (h : s.txBusy = true) : exec .txDone s = runLoop hardware (clearTx s) :=
  if_pos h

/-- Settles O33: the two paths of TX_DONE; at IDLE the loop it resumes has ended. -/
theorem txDoneResumesLoop : Obligations.TxDoneResumesLoop := by
  refine ⟨rfl, fun s => ⟨rfl, exec_txDone_ignored, exec_txDone_resumes, fun ht hstage => ?_⟩⟩
  have hblocked : loopBlocked (clearTx s) = true := (loopBlocked_iff _).mpr (.inr (.inl hstage))
  exact ⟨(exec_txDone_resumes ht).trans (runLoop_blocked hardware _ hblocked), (loopIdle_iff _).mpr ⟨hstage, rfl⟩⟩

/-- From any classifier stage on, a loop in which neither classifier has an edge or a click ends the iteration (R136,
R191, R192). -/
theorem runLoop_classifierStage_quiet {clockW rawW : Nat} {P : Config.Params} {s : State clockW rawW}
    (ht : s.txBusy = false) (hstage : s.stage ∈ [Stage.clsAEdge, .clsATo, .clsBEdge, .clsBTo])
    (hedge : ∀ x, (btn s x).edgeSeen = false) (hclick : ∀ x, (btn s x).pendingClickTime = 0) :
    runLoop P s = .next (setStage .idle s) := by
  have hBTo : runLoop P (setStage .clsBTo s) = .next (setStage .idle s) :=
    (runLoop_afterEdge_waits (x := .btnB) ht (.inl (hclick .btnB))).trans runLoop_afterTo_btnB
  have hBEdge : runLoop P (setStage .clsBEdge s) = .next (setStage .idle s) :=
    (runLoop_edgeStage_unseen (s := setStage .clsBEdge s) (x := .btnB) ht rfl (hedge .btnB)).trans hBTo
  have hATo : runLoop P (setStage .clsATo s) = .next (setStage .idle s) :=
    (runLoop_afterEdge_waits (x := .btnA) ht (.inl (hclick .btnA))).trans hBEdge
  simp only [List.mem_cons, List.not_mem_nil, or_false] at hstage
  obtain h | h | h | h := hstage
  · exact runLoop_clsAEdge_quiet ht h hedge hclick
  · rwa [← h] at hATo
  · rwa [← h] at hBEdge
  · rwa [← h] at hBTo

/-- Settles O34: the resumed loop meets only stages with nothing to do. -/
theorem txDoneEndsQuietIteration : Obligations.TxDoneEndsQuietIteration := by
  intro s ht hstage hedgeA hedgeB hclickA hclickB
  rw [exec_txDone_resumes ht]
  exact runLoop_classifierStage_quiet rfl hstage (fun x => by cases x; exacts [hedgeA, hedgeB])
    (fun x => by cases x; exacts [hclickA, hclickB])

end Sys2Proof.Machine

/-! The lines of an iteration (R193): what it has sent and can still send together, which no action of its loop raises. -/

namespace Sys2Proof.Machine

/-- The lines of two parts of a trace add up (R43). -/
@[simp] theorem lineCount_append (os ps : List OutEvent) : lineCount (os ++ ps) = lineCount os + lineCount ps := by
  induction os with
  | nil => simp [lineCount]
  | cons o os ih => cases o <;> simp [lineCount, ih, Nat.add_right_comm]

section
variable {clockW rawW : Nat} {P : Config.Params} {x : Button} {s : State clockW rawW}

/-- The lines an iteration can still send once it is past the button's two stages (R192, R193). -/
def linesAfter : Button → Nat
  | .btnA => 1
  | .btnB => 0

theorem linesLeft_of_edgeStage (h : s.stage = edgeStage x) : linesLeft s = linesAfter x + 1 := by
  cases x <;> simp [linesLeft, h, edgeStage, linesAfter]

/-- The lines CLS_b_TO can send: one for a click that is pending (R132). -/
def clickLines (r : ButtonRegs clockW) : Nat := if r.pendingClickTime = 0 then 0 else 1

theorem clickLines_eq_zero {r : ButtonRegs clockW} (h : r.pendingClickTime = 0) : clickLines r = 0 := if_pos h
theorem clickLines_eq_one {r : ButtonRegs clockW} (h : r.pendingClickTime ≠ 0) : clickLines r = 1 := if_neg h

theorem clickLines_le_one (r : ButtonRegs clockW) : clickLines r ≤ 1 := by
  unfold clickLines
  split <;> decide

theorem linesLeft_of_afterEdge (h : s.stage = afterEdge x) : linesLeft s = linesAfter x + clickLines (btn s x) := by
  have hite : linesLeft s = if (btn s x).pendingClickTime = 0 then linesAfter x + 0 else linesAfter x + 1 := by
    cases x <;> rw [linesLeft, h] <;> rfl
  exact hite.trans (apply_ite (linesAfter x + ·) _ 0 1).symm

theorem linesLeft_of_afterTo (h : s.stage = afterTo x) : linesLeft s = linesAfter x := by
  cases x <;> simp [linesLeft, h, afterTo, linesAfter]

/-- The lines sent since reset and those the iteration can still send (R193). -/
def linesOwed (s : State clockW rawW) : Nat := lineCount s.trace + linesLeft s

theorem analogCheck_linesOwed_le (h : s.stage = .analog) : linesOwed (analogCheck P s) ≤ linesOwed s := by
  obtain ⟨-, e⟩ | ⟨-, e⟩ := analogCheck_cases P s <;> simp [e, linesOwed, linesLeft, h, lineCount]

/-- A line sent by CLS_b_EDGE leaves no click for CLS_b_TO to send one for (R131, R193). -/
theorem clsEdge_linesOwed_le (h : s.stage = edgeStage x) : linesOwed (clsEdge P x s) ≤ linesOwed s := by
  have hclick := clickLines_le_one (btn (clsEdge P x s) x)
  rw [linesOwed, linesOwed, linesLeft_of_afterEdge (clsEdge_stage P x s), linesLeft_of_edgeStage h]
  obtain ⟨-, e⟩ | ⟨-, -, e⟩ | ⟨-, -, e⟩ := clsEdge_cases P x s
  · have hcount : lineCount (clsEdge P x s).trace = lineCount s.trace := by simp [e]
    omega
  · have hnone : clickLines (btn (clsEdge P x s) x) = 0 := clickLines_eq_zero (by simp [e, consumeEdge])
    have hcount : lineCount (clsEdge P x s).trace = lineCount s.trace + 1 := by simp [e, lineCount]
    omega
  · have hcount : lineCount (clsEdge P x s).trace = lineCount s.trace := by simp [e]
    omega

/-- CLS_b_TO sends a line only for a pending click (R132). -/
theorem clsTo_linesOwed_le (h : s.stage = afterEdge x) : linesOwed (clsTo P x s) ≤ linesOwed s := by
  rw [linesOwed, linesOwed, linesLeft_of_afterTo (clsTo_stage P x s), linesLeft_of_afterEdge h]
  obtain ⟨ht, e⟩ | ⟨-, e⟩ := clsTo_cases P x s
  · have hone : clickLines (btn s x) = 1 := clickLines_eq_one fun h0 => by simp [timedOut, h0] at ht
    have hcount : lineCount (clsTo P x s).trace = lineCount s.trace + 1 := by simp [e, lineCount]
    omega
  · have hcount : lineCount (clsTo P x s).trace = lineCount s.trace := by simp [e]
    omega

theorem stageAction_linesOwed_le (P : Config.Params) (s : State clockW rawW) :
    linesOwed (stageAction P s) ≤ linesOwed s := by
  obtain e | ⟨h, e⟩ | ⟨x, h, e⟩ | ⟨x, h, e⟩ := stageAction_cases P s <;> rw [e]
  · exact analogCheck_linesOwed_le h
  · exact clsEdge_linesOwed_le (by cases x <;> exact h)
  · exact clsTo_linesOwed_le (by cases x <;> exact h)

/-- The line of a delivered value is the one the wait kept room for (R151, R193). -/
theorem deliver_linesOwed_le (raw : Raw rawW) (h : s.stage = .adcWait) : linesOwed (deliver P raw s) ≤ linesOwed s := by
  obtain ⟨-, e⟩ | ⟨-, e⟩ := deliver_cases P raw s <;> simp [e, linesOwed, linesLeft, h, lineCount]

theorem iterStart_linesOwed (h : s.stage = .idle) : linesOwed (iterStart s) = linesOwed s + 3 := by
  simp [linesOwed, linesLeft, h]

/-- What an iteration can still send is read from the main-loop context's registers alone. -/
theorem KeepsMainLoopSide.linesLeft_eq {t : State clockW rawW} (k : KeepsMainLoopSide s t) :
    linesLeft t = linesLeft s := by
  have hA : t.btnA.pendingClickTime = s.btnA.pendingClickTime := k.pendingClickTime .btnA
  have hB : t.btnB.pendingClickTime = s.btnB.pendingClickTime := k.pendingClickTime .btnB
  simp only [linesLeft, k.stage, hA, hB]

end

variable {i : Instr} {s t u : State}

/-- An interrupt event sends no line (R42). -/
theorem exec_interrupt_lineCount (hi : contextOf i = .interrupt) (h : exec i s = .next t) :
    lineCount t.trace = lineCount s.trace := by
  obtain ⟨htick, hedgeA, hedgeB, -⟩ := oneOutputPerEvent i s t h
  cases i with
  | tick => simp [htick rfl, lineCount]
  | edgeA => simp [hedgeA rfl, lineCount]
  | edgeB => simp [hedgeB rfl, lineCount]
  | iter | adcDone | txDone => cases hi

/-- How many lines an event lets the loop send beyond those it owes: three if it starts an iteration (R193). -/
abbrev linesGranted (i : Instr) (s : State) : Nat := if i = .iter ∧ s.stage = .idle ∧ s.txBusy = false then 3 else 0

theorem Resumes.linesOwed_le (hr : Resumes s i u) : linesOwed u ≤ linesOwed s + linesGranted i s := by
  cases hr with
  | iter hl =>
    have hidle := (loopIdle_iff s).mp hl
    rw [iterStart_linesOwed hidle.1, linesGranted, if_pos ⟨rfl, hidle⟩]
  | adcDone raw hw => exact Nat.le_add_right_of_le (deliver_linesOwed_le raw hw)
  | txDone => exact Nat.le_add_right (linesOwed s) _

theorem exec_linesOwed_le (h : exec i s = .next t) : linesOwed t ≤ linesOwed s + linesGranted i s := by
  cases hi : contextOf i with
  | interrupt =>
    rw [linesOwed, exec_interrupt_lineCount hi h, (exec_keepsMainLoopSide hi h).linesLeft_eq]
    exact Nat.le_add_right (linesOwed s) _
  | mainLoop =>
    obtain ⟨rfl, -⟩ | ⟨u, hr, hrun⟩ := exec_mainLoop_cases hi h
    · exact Nat.le_add_right _ _
    · obtain ⟨ht, -⟩ := runLoop_keeps hardware (fun v => linesOwed v ≤ linesOwed s + linesGranted i s)
        (fun v hv _ _ => (stageAction_linesOwed_le hardware v).trans hv) u t hr.stage_ne_unused hr.linesOwed_le hrun
      exact ht

/-- Settles O41: no action of the loop raises what is sent and owed, and only the start of an iteration grants more. -/
theorem atMostThreeLinesPerIteration : Obligations.AtMostThreeLinesPerIteration := fun _ _ _ => exec_linesOwed_le

end Sys2Proof.Machine

/-! The main-loop sequencer: when ITER is held and what it starts (R190, R194), RunLoop as a while loop (R191), the order
of the stages (R192), and the independence of the classifiers (R197). -/

namespace Sys2Proof.Machine

/-! ### ITER -/

section
variable {s : State} {x : Button}

/-- Settles O9: where no input may be taken nothing is fetched, and a step that fetches nothing rests. -/
theorem stepRestsWithoutAcceptableInput : Obligations.StepRestsWithoutAcceptableInput := by
  intro s hstage hheld
  rw [step, stepBy, fetch_nothing hstage hheld]

/-- Settles O21: an ITER that is not accepted changes nothing, run or offered. -/
theorem iterHeldWhileBusy : Obligations.IterHeldWhileBusy := fun _ hbusy =>
  have hacc := accepts_iter_of_busy hbusy
  ⟨exec_of_not_accepts hacc, fun hstage hin => step_held_offer hstage hin hacc⟩

/-- In an idle loop ITER starts its loop from the snapshot (R190). -/
theorem exec_iter_starts (hstage : s.stage = .idle) (ht : s.txBusy = false) :
    exec .iter s = runLoop hardware (iterStart s) :=
  if_pos ((loopIdle_iff s).mpr ⟨hstage, ht⟩)

/-- With a sample due the loop starts a conversion, and waits for it (R150). -/
theorem runLoop_analog_due {clockW rawW : Nat} {P : Config.Params} {s : State clockW rawW} (ht : s.txBusy = false)
    (hstage : s.stage = .analog) (hdue : P.adcReadInterval ≤ elapsed s.now s.lastSampleTime) :
    runLoop P s =
      .next (setStage .adcWait (emit (.adcStart P.adcChannel) { s with lastSampleTime := s.now })) := by
  obtain ⟨-, e⟩ | ⟨hlt, -⟩ := analogCheck_cases P s
  · rw [runLoop_analog ht hstage, e]
    exact runLoop_blocked P _ ((loopBlocked_iff _).mpr (.inr (.inr rfl)))
  · exact absurd hdue (Nat.not_le.mpr hlt)

/-- Settles O22: the loop from the snapshot waits for a conversion, or comes to classifier A. -/
theorem iterStartsConversion : Obligations.IterStartsConversion := by
  refine fun s hstage ht => ⟨fun hdue => ?_, fun hdue => (reachesButton_btnA hstage ht hdue).2⟩
  rw [exec_iter_starts hstage ht, runLoop_analog_due (s := iterStart s) ht rfl hdue]
  rfl

/-- Past a quiet B an iteration that has done nothing else ends with the snapshot (R193). -/
theorem ReachesButton.ends (h : ReachesButton s .btnB) (hB : Quiet s .btnB) :
    exec .iter s = .next (setStage .idle (snapshot s)) := by
  obtain ⟨ht, e⟩ := h
  obtain ⟨he, hp⟩ := hB.snapshotBtn
  calc exec .iter s
    _ = runLoop hardware (iterAt .btnB s) := e
    _ = runLoop hardware (setStage (afterTo .btnB) (iterAt .btnB s)) :=
      runLoop_edgeStage_quiet (x := .btnB) ht rfl he hp
    _ = .next (setStage .idle (snapshot s)) := runLoop_afterTo_btnB

/-- Settles O23: the iteration passes both buttons, and the snapshot of a button not pressed only clears `edge_seen`. -/
theorem quietIterationSendsNothing : Obligations.QuietIterationSendsNothing := by
  intro s hstage ht hdue hA hB hpA hpB
  rw [((reachesButton_btnA hstage ht hdue).btnB ⟨hA, hpA⟩).ends ⟨hB, hpB⟩, snapshot, snapshotBtn_released hA,
    snapshotBtn_released hB, ← hstage]
  rfl

end

section
variable {clockW rawW : Nat} {P : Config.Params} {x y : Button} {s t u : State clockW rawW}

/-! ### RunLoop -/

/-- `t` is what some actions of the loop lead to from `s`, and they and those left at `t` are no more than were left
at `s` (R191). -/
def ReachedByActions (P : Config.Params) (s t : State clockW rawW) : Prop :=
  ∃ n, t = (stageAction P)^[n] s ∧ n + actionsLeft t ≤ actionsLeft s

theorem ReachedByActions.stageAction (h : ReachedByActions P s t) (hb : loopBlocked t = false)
    (hu : t.stage ≠ .unused) : ReachedByActions P s (stageAction P t) := by
  obtain ⟨n, rfl, hn⟩ := h
  have hlt := actionsLeft_stageAction P _ hb hu
  exact ⟨n + 1, (Function.iterate_succ_apply' _ _ _).symm, by omega⟩

/-- RunLoop stops, blocked, after at most five actions (R191). -/
theorem runLoop_eq_iterate (hu : s.stage ≠ .unused) :
    ∃ n ≤ 5, runLoop P s = .next ((stageAction P)^[n] s) ∧ loopBlocked ((stageAction P)^[n] s) = true := by
  obtain ⟨-, hrun, ⟨n, rfl, hn⟩, hb, -⟩ :=
    runLoop_spec P (ReachedByActions P s) (fun _ h => h.stageAction) s hu ⟨0, rfl, by simp⟩
  have hle := actionsLeft_le_five s
  exact ⟨n, by omega, hrun, hb⟩

/-- Settles O36: a blocked loop stops, stage 7 is refused, and any other stage is one turn. -/
theorem runLoopIsWhileLoop : Obligations.RunLoopIsWhileLoop := by
  refine fun clockW rawW P s => ⟨?_, runLoop_eq_iterate⟩
  split
  next h => exact runLoop_blocked P s ((loopBlocked_iff s).mpr h)
  next h =>
    have ht : s.txBusy = false := by simpa using fun ht => h (.inl ht)
    cases hstage : s.stage with
    | idle => exact absurd (.inr (.inl hstage)) h
    | adcWait => exact absurd (.inr (.inr hstage)) h
    | unused => exact runLoop_unused P s hstage ht
    | analog => exact runLoop_analog ht hstage
    | clsAEdge => exact runLoop_clsAEdge ht hstage
    | clsATo => exact runLoop_clsATo ht hstage
    | clsBEdge => exact runLoop_clsBEdge ht hstage
    | clsBTo => exact runLoop_clsBTo ht hstage

/-! ### The stages in order -/

theorem analogCheck_stage (P : Config.Params) (s : State clockW rawW) :
    (analogCheck P s).stage =
      if P.adcReadInterval ≤ elapsed s.now s.lastSampleTime then .adcWait else .clsAEdge := by
  obtain ⟨hdue, e⟩ | ⟨hdue, e⟩ := analogCheck_cases P s
  · rw [e, if_pos hdue]; rfl
  · rw [e, if_neg (Nat.not_le.mpr hdue)]; rfl

/-- From `s` to `t` this line is sent and outstanding, or nothing is sent (R170). -/
def SendsAtMost (line : List Byte) (s t : State clockW rawW) : Prop :=
  (t.txBusy = true ∧ t.trace = s.trace ++ [.txLine line]) ∨ (t.txBusy = s.txBusy ∧ t.trace = s.trace)

/-- With no line outstanding before, one is outstanding exactly if it was sent (R170, R192). -/
theorem SendsAtMost.txBusy_iff {line : List Byte} (h : SendsAtMost line s t) (ht : s.txBusy = false) :
    t.txBusy = true ↔ t.trace = s.trace ++ [.txLine line] := by
  obtain ⟨hbusy, htrace⟩ | ⟨hbusy, htrace⟩ := h
  · simp [hbusy, htrace]
  · simp [hbusy, htrace, ht]

theorem clsEdge_sendsAtMost (P : Config.Params) (x : Button) (s : State clockW rawW) :
    SendsAtMost (doubleLine x) s (clsEdge P x s) := by
  obtain ⟨-, e⟩ | ⟨-, -, e⟩ | ⟨-, -, e⟩ := clsEdge_cases P x s
  · exact .inr (by simp [e])
  · exact .inl (by simp [e])
  · exact .inr (by simp [e])

theorem clsTo_sendsAtMost (P : Config.Params) (x : Button) (s : State clockW rawW) :
    SendsAtMost (timeoutLine x) s (clsTo P x s) := by
  obtain ⟨-, e⟩ | ⟨-, e⟩ := clsTo_cases P x s
  · exact .inl (by simp [e])
  · exact .inr (by simp [e])

theorem deliver_sendsAtMost (P : Config.Params) (raw : Raw rawW) (s : State clockW rawW) :
    SendsAtMost (valueLine (scaled P raw)) s (deliver P raw s) := by
  obtain ⟨-, e⟩ | ⟨-, e⟩ := deliver_cases P raw s
  · exact .inl (by simp [e])
  · exact .inr (by simp [e])

/-- Settles O37: the stage each action writes, and the one line it may send. -/
theorem stageOrder : Obligations.StageOrder := fun _ _ P s raw =>
  ⟨analogCheck_stage P s, deliver_stage P raw s, clsEdge_stage P .btnA s, clsTo_stage P .btnA s,
    clsEdge_stage P .btnB s, clsTo_stage P .btnB s, fun ht x =>
      ⟨(clsEdge_sendsAtMost P x s).txBusy_iff ht, (clsTo_sendsAtMost P x s).txBusy_iff ht,
        (deliver_sendsAtMost P raw s).txBusy_iff ht⟩⟩

/-! ### The independence of the classifiers -/

theorem btn_clsEdge_other (P : Config.Params) (s : State clockW rawW) (h : y ≠ x) :
    btn (clsEdge P x s) y = btn s y := by
  obtain ⟨-, e⟩ | ⟨-, -, e⟩ | ⟨-, -, e⟩ := clsEdge_cases P x s <;> simp [e, btn_setBtn_other x y _ s h]

theorem btn_clsTo_other (P : Config.Params) (s : State clockW rawW) (h : y ≠ x) :
    btn (clsTo P x s) y = btn s y := by
  obtain ⟨-, e⟩ | ⟨-, e⟩ := clsTo_cases P x s <;> simp [e, btn_setBtn_other x y _ s h]

/-- What a classifier leaves of the sampler, Clock and `now` (R197). -/
theorem SameFrame.keepsSampler (h : SameFrame s t) (hsample : t.lastSampleTime = s.lastSampleTime) :
    t.lastSampleTime = s.lastSampleTime ∧ t.lastSentValue = s.lastSentValue ∧ t.lastSentValid = s.lastSentValid ∧
      t.clock = s.clock ∧ t.now = s.now := by
  obtain ⟨hclock, hnow, hvalue, hvalid, -⟩ := h
  exact ⟨hsample, hvalue, hvalid, hclock, hnow⟩

/-- The two states agree on all that the classifier of this button reads and writes (R197). -/
structure SameForClassifier (x : Button) (s u : State clockW rawW) : Prop where
  now : u.now = s.now
  btn : btn u x = btn s x
  stage : u.stage = s.stage
  txBusy : u.txBusy = s.txBusy
  trace : u.trace = s.trace

theorem SameForClassifier.setStage (h : SameForClassifier x s u) (v : Stage) :
    SameForClassifier x (setStage v s) (setStage v u) :=
  ⟨h.now, by simp [h.btn], rfl, h.txBusy, h.trace⟩

theorem SameForClassifier.setBtn (h : SameForClassifier x s u) (r : ButtonRegs clockW) :
    SameForClassifier x (setBtn x r s) (setBtn x r u) :=
  ⟨by simp [h.now], by simp, by simp [h.stage], by simp [h.txBusy], by simp [h.trace]⟩

theorem SameForClassifier.emitLine (h : SameForClassifier x s u) (line : List Byte) :
    SameForClassifier x (emitLine line s) (emitLine line u) :=
  ⟨h.now, by simp [h.btn], h.stage, rfl, by simp [h.trace]⟩

/-- CLS_b_EDGE takes the same path in both states (R131). -/
theorem SameForClassifier.clsEdge (h : SameForClassifier x s u) :
    SameForClassifier x (clsEdge P x s) (clsEdge P x u) := by
  unfold Machine.clsEdge
  rw [h.btn]
  split_ifs
  · exact ((h.setBtn _).setStage _).emitLine _
  · exact (h.setBtn _).setStage _
  · exact h.setStage _

/-- CLS_b_TO takes the same path in both states (R132). -/
theorem SameForClassifier.clsTo (h : SameForClassifier x s u) :
    SameForClassifier x (clsTo P x s) (clsTo P x u) := by
  unfold Machine.clsTo
  rw [h.btn, h.now]
  split_ifs
  · exact ((h.setBtn _).setStage _).emitLine _
  · exact h.setStage _

/-- Settles O38: what the two actions leave, and what they do where all that they read is the same. -/
theorem classifiersIndependent : Obligations.ClassifiersIndependent := by
  intro clockW rawW P x y s u hne
  refine ⟨⟨btn_clsEdge_other P s hne, btn_clsTo_other P s hne⟩, fun t ht => ?_,
    fun hnow hbtn hstage htx htrace => ?_⟩
  · obtain rfl | rfl : t = clsEdge P x s ∨ t = clsTo P x s := by simpa using ht
    · exact (clsEdge_frame P x s).keepsSampler (clsEdge_lastSampleTime P x s)
    · exact (clsTo_frame P x s).keepsSampler (clsTo_lastSampleTime P x s)
  · have h : SameForClassifier x s u := ⟨hnow, hbtn, hstage, htx, htrace⟩
    have hedge := h.clsEdge (P := P)
    have hto := h.clsTo (P := P)
    exact ⟨⟨hedge.btn, hedge.stage, hedge.txBusy, hedge.trace⟩, ⟨hto.btn, hto.stage, hto.txBusy, hto.trace⟩⟩

end

end Sys2Proof.Machine

/-! Interrupts and completions (R196): an interrupt event reads and writes only the interrupt context's registers, a
completion only the others, and each appends its outputs to the trace whatever stands in it. So they commute. -/

namespace Sys2Proof.Machine

/-- The bytes of two parts of a trace follow each other (R43). -/
@[simp] theorem serialBytes_append (os ps : List OutEvent) :
    serialBytes (os ++ ps) = serialBytes os ++ serialBytes ps := by
  induction os with
  | nil => rfl
  | cons o os ih => cases o <;> simp [serialBytes, ih]

/-- The interrupt context's registers of one button (R22 to R24). -/
structure ButtonCapture (clockW : Nat) where
  lastRecordedTime : TimeStamp clockW
  pressTime : TimeStamp clockW
  pressed : Bool

/-- The interrupt context's registers (R36). -/
structure InterruptSide (clockW : Nat) where
  clock : TimeStamp clockW
  btn : Button → ButtonCapture clockW

section
variable {clockW rawW : Nat}

/-- The registers of a button with these for the interrupt context's. -/
def withCapture (c : ButtonCapture clockW) (r : ButtonRegs clockW) : ButtonRegs clockW :=
  { r with lastRecordedTime := c.lastRecordedTime, pressTime := c.pressTime, pressed := c.pressed }

@[simp] theorem withCapture_edgeSeen (c : ButtonCapture clockW) (r : ButtonRegs clockW) :
    (withCapture c r).edgeSeen = r.edgeSeen := rfl
@[simp] theorem withCapture_edgeTime (c : ButtonCapture clockW) (r : ButtonRegs clockW) :
    (withCapture c r).edgeTime = r.edgeTime := rfl
@[simp] theorem withCapture_pendingClickTime (c : ButtonCapture clockW) (r : ButtonRegs clockW) :
    (withCapture c r).pendingClickTime = r.pendingClickTime := rfl
@[simp] theorem consumeEdge_withCapture (p : TimeStamp clockW) (c : ButtonCapture clockW) (r : ButtonRegs clockW) :
    consumeEdge p (withCapture c r) = withCapture c (consumeEdge p r) := rfl

/-- The state with these registers of the interrupt context and this trace; the main-loop context's registers and the
inputs are its own. -/
def withInterruptSide (k : InterruptSide clockW) (os : List OutEvent) (s : State clockW rawW) : State clockW rawW :=
  { s with
    clock := k.clock
    btnA := withCapture (k.btn .btnA) s.btnA
    btnB := withCapture (k.btn .btnB) s.btnB
    trace := os }

/-- The interrupt context's registers of a state (R36). -/
def interruptSideOf (s : State clockW rawW) : InterruptSide clockW where
  clock := s.clock
  btn x := ⟨(btn s x).lastRecordedTime, (btn s x).pressTime, (btn s x).pressed⟩

theorem withInterruptSide_self (s : State clockW rawW) : withInterruptSide (interruptSideOf s) s.trace s = s := rfl

section
variable (k : InterruptSide clockW) (os : List OutEvent) (s : State clockW rawW) (x : Button)

@[simp] theorem withInterruptSide_clock : (withInterruptSide k os s).clock = k.clock := rfl
@[simp] theorem withInterruptSide_now : (withInterruptSide k os s).now = s.now := rfl
@[simp] theorem withInterruptSide_stage : (withInterruptSide k os s).stage = s.stage := rfl
@[simp] theorem withInterruptSide_txBusy : (withInterruptSide k os s).txBusy = s.txBusy := rfl
@[simp] theorem loopBlocked_withInterruptSide : loopBlocked (withInterruptSide k os s) = loopBlocked s := rfl
@[simp] theorem sampleDue_withInterruptSide (P : Config.Params) :
    sampleDue P (withInterruptSide k os s) = sampleDue P s := rfl
@[simp] theorem mustSend_withInterruptSide (v : Raw rawW) : mustSend v (withInterruptSide k os s) = mustSend v s := rfl
@[simp] theorem btn_withInterruptSide : btn (withInterruptSide k os s) x = withCapture (k.btn x) (btn s x) := by
  cases x <;> rfl

/-! Writing the main-loop context's registers goes past those of the interrupt context, and an output past what stands in
the trace. -/

@[simp] theorem setStage_withInterruptSide (v : Stage) :
    setStage v (withInterruptSide k os s) = withInterruptSide k os (setStage v s) := rfl
@[simp] theorem clearTx_withInterruptSide :
    clearTx (withInterruptSide k os s) = withInterruptSide k os (clearTx s) := rfl
@[simp] theorem emitLine_withInterruptSide (line : List Byte) :
    emitLine line (withInterruptSide k os s) = withInterruptSide k (os ++ [.txLine line]) (emitLine line s) := rfl
@[simp] theorem setBtn_withInterruptSide (r : ButtonRegs clockW) :
    setBtn x (withCapture (k.btn x) r) (withInterruptSide k os s) = withInterruptSide k os (setBtn x r s) := by
  cases x <;> rfl

end

/-! ### The interrupt events -/

/-- `f` reads and writes only the interrupt context's registers, and outputs `o`. -/
def ActsOnInterruptSide (o : OutEvent) (f : State clockW rawW → State clockW rawW) : Prop :=
  ∀ k, ∃ k', ∀ os s, f (withInterruptSide k os s) = withInterruptSide k' (os ++ [o]) s

theorem tick_actsOnInterruptSide : ActsOnInterruptSide (clockW := clockW) (rawW := rawW) .tickAck tick :=
  fun k => ⟨{ k with clock := incW k.clock }, fun _ _ => rfl⟩

/-- The interrupt context's registers with an edge of this button recorded (R110). -/
def InterruptSide.recordEdge (x : Button) (k : InterruptSide clockW) : InterruptSide clockW :=
  { k with btn := Function.update k.btn x ⟨k.clock, k.clock, true⟩ }

theorem edge_actsOnInterruptSide (P : Config.Params) (x : Button) :
    ActsOnInterruptSide (clockW := clockW) (rawW := rawW) (.edgeAck x) (edge P x) := by
  intro k
  by_cases hgap : P.debounceTime < elapsed k.clock (k.btn x).lastRecordedTime
  · refine ⟨k.recordEdge x, fun os s => ?_⟩
    rw [edge_eq_ite, btn_withInterruptSide, withInterruptSide_clock]
    exact (if_pos hgap).trans (by cases x <;> rfl)
  · refine ⟨k, fun os s => ?_⟩
    rw [edge_eq_ite, btn_withInterruptSide, withInterruptSide_clock]
    exact if_neg hgap

/-! ### The completions -/

/-- `f` reads and writes only the main-loop context's registers, and appends to the trace whatever stands in it. -/
def ActsOnMainLoopSide (f : State clockW rawW → State clockW rawW) : Prop :=
  ∀ s, ∃ os, ∀ k tr, f (withInterruptSide k tr s) = withInterruptSide k (tr ++ os) (f s)

/-- The same of a meaning that answers an outcome: where it answers next for one interrupt side and trace, it does so
for every one, and reads none of them. -/
def AnswersOnMainLoopSide (run : State clockW rawW → Host.Outcome (State clockW rawW) Fault Refusal) : Prop :=
  ∀ k₀ tr₀ s t₀, run (withInterruptSide k₀ tr₀ s) = .next t₀ →
    ∃ os t, ∀ k tr, run (withInterruptSide k tr s) = .next (withInterruptSide k (tr ++ os) t)

variable (P : Config.Params)

theorem analogCheck_actsOnMainLoopSide : ActsOnMainLoopSide (clockW := clockW) (rawW := rawW) (analogCheck P) := by
  intro s
  obtain ⟨hdue, e⟩ | ⟨hdue, e⟩ := analogCheck_cases P s
  · exact ⟨[.adcStart P.adcChannel], fun _ _ => by rw [e]; exact if_pos (decide_eq_true hdue)⟩
  · have hnot : sampleDue P s = false := decide_eq_false (Nat.not_le.mpr hdue)
    exact ⟨[], fun _ _ => by simp [analogCheck, hnot]⟩

theorem clsEdge_actsOnMainLoopSide (x : Button) :
    ActsOnMainLoopSide (clockW := clockW) (rawW := rawW) (clsEdge P x) := by
  intro s
  obtain ⟨hs, -⟩ | ⟨hs, hd, -⟩ | ⟨hs, hd, -⟩ := clsEdge_cases P x s
  · exact ⟨[], fun _ _ => by simp [clsEdge, hs]⟩
  · exact ⟨[.txLine (doubleLine x)], fun _ _ => by simp [clsEdge, hs, hd]⟩
  · exact ⟨[], fun _ _ => by simp [clsEdge, hs, hd]⟩

theorem clsTo_actsOnMainLoopSide (x : Button) :
    ActsOnMainLoopSide (clockW := clockW) (rawW := rawW) (clsTo P x) := by
  intro s
  obtain ⟨ht, e⟩ | ⟨ht, -⟩ := clsTo_cases P x s
  · exact ⟨[.txLine (timeoutLine x)], fun _ _ => by rw [e]; cases x <;> exact if_pos ht⟩
  · exact ⟨[], fun _ _ => by simp [clsTo, ht]⟩

theorem deliver_actsOnMainLoopSide (raw : Raw rawW) :
    ActsOnMainLoopSide (clockW := clockW) (deliver P raw) := by
  intro s
  cases hm : mustSend (scaled P raw) s with
  | true => exact ⟨[.txLine (valueLine (scaled P raw))], fun _ _ => by rw [deliver_sends hm]; exact if_pos hm⟩
  | false => exact ⟨[], fun _ _ => by simp [deliver, hm]⟩

theorem stageAction_actsOnMainLoopSide :
    ActsOnMainLoopSide (clockW := clockW) (rawW := rawW) (stageAction P) := by
  intro s
  cases hstage : s.stage with
  | analog => simpa [stageAction, hstage] using analogCheck_actsOnMainLoopSide P s
  | clsAEdge => simpa [stageAction, hstage] using clsEdge_actsOnMainLoopSide P .btnA s
  | clsATo => simpa [stageAction, hstage] using clsTo_actsOnMainLoopSide P .btnA s
  | clsBEdge => simpa [stageAction, hstage] using clsEdge_actsOnMainLoopSide P .btnB s
  | clsBTo => simpa [stageAction, hstage] using clsTo_actsOnMainLoopSide P .btnB s
  | idle | adcWait | unused => exact ⟨[], fun _ _ => by simp [stageAction, hstage]⟩

/-- A run of the loop is stage actions, one after another (R191). -/
theorem runLoopFor_answersOnMainLoopSide (n : Nat) :
    AnswersOnMainLoopSide (clockW := clockW) (rawW := rawW) (runLoopFor P n) := by
  induction n with
  | zero => exact fun _ _ s _ _ => ⟨[], s, fun _ _ => by rw [List.append_nil]; rfl⟩
  | succ n ih =>
    intro k₀ tr₀ s t₀ h
    cases hb : loopBlocked s with
    | true => exact ⟨[], s, fun _ _ => by simp [runLoopFor, hb]⟩
    | false =>
      by_cases hu : s.stage = .unused
      · simp [runLoopFor, hb, hu] at h
      · obtain ⟨os, hact⟩ := stageAction_actsOnMainLoopSide P s
        have hturn : ∀ k tr, runLoopFor P (n + 1) (withInterruptSide k tr s) =
            runLoopFor P n (withInterruptSide k (tr ++ os) (stageAction P s)) := fun k tr => by
          simp [runLoopFor, hb, hu, hact]
        rw [hturn] at h
        obtain ⟨os', t, hrun⟩ := ih _ _ _ _ h
        exact ⟨os ++ os', t, fun k tr => by rw [hturn, hrun, List.append_assoc]⟩

/-- An operation and then a run of the loop. -/
theorem ActsOnMainLoopSide.runLoop {f : State clockW rawW → State clockW rawW} (hf : ActsOnMainLoopSide f) :
    AnswersOnMainLoopSide fun s => runLoop P (f s) := by
  intro k₀ tr₀ s t₀ h
  obtain ⟨os, hact⟩ := hf s
  beta_reduce at h ⊢
  rw [hact] at h
  obtain ⟨os', t, hrun⟩ := runLoopFor_answersOnMainLoopSide P 5 _ _ _ _ h
  exact ⟨os ++ os', t, fun k tr => by rw [hact, Machine.runLoop, hrun, List.append_assoc]⟩

/-- An event that is ignored by a condition on the main-loop context's registers. -/
theorem AnswersOnMainLoopSide.orIgnored {run : State clockW rawW → Host.Outcome (State clockW rawW) Fault Refusal}
    (hrun : AnswersOnMainLoopSide run) {c : State clockW rawW → Bool}
    (hc : ∀ k tr s, c (withInterruptSide k tr s) = c s) :
    AnswersOnMainLoopSide fun s => if c s then run s else .next s := by
  intro k₀ tr₀ s t₀ h
  cases hs : c s with
  | true =>
    simp only [hc, hs, if_true] at h ⊢
    exact hrun k₀ tr₀ s t₀ h
  | false => exact ⟨[], s, fun _ _ => by simp [hc, hs]⟩

end

variable {i j : Instr}

theorem exec_completion_answersOnMainLoopSide (hj : contextOf j = .mainLoop) (hne : j ≠ .iter) :
    AnswersOnMainLoopSide (exec j) := by
  cases j with
  | tick | edgeA | edgeB => cases hj
  | iter => exact absurd rfl hne
  | adcDone raw =>
    exact ((deliver_actsOnMainLoopSide hardware raw).runLoop hardware).orIgnored (c := adcBusy) fun _ _ _ => rfl
  | txDone =>
    have hclear : ActsOnMainLoopSide (clockW := 32) (rawW := 16) clearTx := fun _ => ⟨[], by simp⟩
    exact (hclear.runLoop hardware).orIgnored (c := State.txBusy) fun _ _ _ => rfl

/-- An interrupt event is an operation on the interrupt context's registers, and outputs no line (R36, R42). -/
theorem exec_interrupt_eq (hi : contextOf i = .interrupt) :
    ∃ f o, (∀ s, exec i s = .next (f s)) ∧ ActsOnInterruptSide o f ∧ serialBytes [o] = [] := by
  cases i with
  | tick => exact ⟨tick, .tickAck, fun _ => rfl, tick_actsOnInterruptSide, rfl⟩
  | edgeA => exact ⟨edge hardware .btnA, .edgeAck .btnA, fun _ => rfl, edge_actsOnInterruptSide _ _, rfl⟩
  | edgeB => exact ⟨edge hardware .btnB, .edgeAck .btnB, fun _ => rfl, edge_actsOnInterruptSide _ _, rfl⟩
  | iter | adcDone | txDone => cases hi

/-- Settles O48: the two events write disjoint registers, and their outputs change places. -/
theorem interruptsCommuteWithCompletions : Obligations.InterruptsCommuteWithCompletions := by
  intro i j s s1 t1 hi hj hne hint hcomp
  obtain ⟨f, o, hexec, hf, hbytes⟩ := exec_interrupt_eq hi
  obtain ⟨k, hk⟩ := hf (interruptSideOf s)
  have hs1 : exec i s = .next (withInterruptSide k (s.trace ++ [o]) s) := by
    rw [hexec, ← hk, withInterruptSide_self]
  obtain rfl : s1 = withInterruptSide k (s.trace ++ [o]) s := by simpa [hs1] using hint.symm
  obtain ⟨os, t, hrun⟩ := exec_completion_answersOnMainLoopSide hj hne _ _ _ _ hcomp
  obtain rfl : t1 = withInterruptSide k (s.trace ++ [o] ++ os) t := by simpa [hrun] using hcomp.symm
  refine ⟨_, _, hrun (interruptSideOf s) s.trace, (hexec _).trans (congrArg _ (hk _ t)), rfl, ?_, ?_⟩
  · show (s.trace ++ os ++ [o]).Perm (s.trace ++ [o] ++ os)
    rw [List.append_assoc, List.append_assoc]
    exact List.perm_append_comm.append_left s.trace
  · show serialBytes (s.trace ++ os ++ [o]) = serialBytes (s.trace ++ [o] ++ os)
    simp only [serialBytes_append, hbytes, List.append_nil]

end Sys2Proof.Machine

/-! No exceptions: every event completes (R210), and events offered together are taken in the hardware's order, an
insertion sort by the tie-break (R214). -/

namespace Sys2Proof.Machine

/-! ### Completion -/

/-- From any stage but the refused one the loop comes to a next state (R191). -/
theorem runLoop_completes {clockW rawW : Nat} (P : Config.Params) {s : State clockW rawW} (hu : s.stage ≠ .unused) :
    ∃ t, runLoop P s = .next t :=
  let ⟨_, _, hrun, _⟩ := runLoop_eq_iterate (P := P) hu
  ⟨_, hrun⟩

/-- Settles O35: an interrupt event is always taken; a main-loop event leaves the state, or resumes the loop at a stage
that has a meaning. -/
theorem everyEventCompletes : Obligations.EveryEventCompletes := by
  intro i s hu
  cases i with
  | tick | edgeA | edgeB => exact ⟨_, rfl⟩
  | iter =>
    obtain ⟨-, e⟩ | ⟨-, e⟩ := iterWith_cases hardware s <;> rw [exec, execIter, e]
    · exact ⟨s, rfl⟩
    · exact runLoop_completes hardware (by simp [iterStart])
  | adcDone raw =>
    obtain ⟨-, e⟩ | ⟨-, e⟩ := adcDoneWith_cases hardware raw s <;> rw [exec, execAdcDone, e]
    · exact ⟨s, rfl⟩
    · exact runLoop_completes hardware (by simp [deliver_stage])
  | txDone =>
    obtain ⟨-, e⟩ | ⟨-, e⟩ := txDoneWith_cases hardware s <;> rw [exec, execTxDone, e]
    · exact ⟨s, rfl⟩
    · exact runLoop_completes hardware (s := clearTx s) hu

/-! ### The tie-break -/

/-- Event `i` may be taken before event `j` when both are offered together (R214). -/
abbrev RankLE : Instr → Instr → Prop := tieBreakRank ⁻¹'o (· ≤ ·)

theorem insertByRank_eq_orderedInsert (i : Instr) (is : List Instr) :
    insertByRank i is = is.orderedInsert RankLE i := by
  induction is with
  | nil => rfl
  | cons j js ih => rw [insertByRank, ih]; rfl

/-- The hardware's order is the library's insertion sort by rank. -/
theorem hardwareOrder_eq_insertionSort (is : List Instr) : hardwareOrder is = is.insertionSort RankLE := by
  induction is with
  | nil => rfl
  | cons i is ih => rw [hardwareOrder, ih, insertByRank_eq_orderedInsert, List.insertionSort_cons]

theorem hardwareOrder_perm (is : List Instr) : (hardwareOrder is).Perm is :=
  hardwareOrder_eq_insertionSort is ▸ is.perm_insertionSort RankLE

theorem hardwareOrder_pairwise (is : List Instr) : (hardwareOrder is).Pairwise RankLE :=
  hardwareOrder_eq_insertionSort is ▸ is.pairwise_insertionSort RankLE

/-- The sort is stable: the events of one rank are a sorted sublist of `is`, which an insertion sort keeps as a sublist,
and there are no more of them after it than before. -/
theorem filter_hardwareOrder (r : Nat) (is : List Instr) :
    (hardwareOrder is).filter (tieBreakRank · == r) = is.filter (tieBreakRank · == r) := by
  have hsorted : (is.filter (tieBreakRank · == r)).Pairwise RankLE :=
    List.pairwise_of_forall_mem_list fun i hi j hj => by
      simp only [List.mem_filter, beq_iff_eq] at hi hj
      exact (hi.2.trans hj.2.symm).le
  have hkept : (is.filter (tieBreakRank · == r)).Sublist (hardwareOrder is) :=
    hardwareOrder_eq_insertionSort is ▸ List.sublist_insertionSort hsorted List.filter_sublist
  have hsub := hkept.filter (tieBreakRank · == r)
  simp only [List.filter_filter, Bool.and_self] at hsub
  exact (hsub.eq_of_length ((hardwareOrder_perm is).filter _).length_eq.symm).symm

/-- Settles O16: the ranks are literal, and the hardware's order is a stable insertion sort by them. -/
theorem hardwareTieBreak : Obligations.HardwareTieBreak :=
  ⟨fun _ => by simp [tieBreakRank], fun _ _ => rfl, fun is =>
    ⟨hardwareOrder_perm is, hardwareOrder_pairwise is, fun r => filter_hardwareOrder r is⟩⟩

end Sys2Proof.Machine

/-! Reset and hazards: the reset input (R240 to R242), the startup window (R256), the blocking transmit (R251), and what
can be sent from a settled state without a new edge (R263). -/

namespace Sys2Proof.Machine

/-! ### No classifier line without a new edge -/

section
variable {clockW rawW : Nat} {P : Config.Params} {os : List OutEvent} {s t : State clockW rawW}

/-- No button has a click unconsumed, seen or pending: what NoClick says of a state within an iteration (R263). -/
def ClickFree (s : State clockW rawW) : Prop :=
  ∀ x, (btn s x).pressed = false ∧ (btn s x).pendingClickTime = 0 ∧ (btn s x).edgeSeen = false

theorem ClickFree.of_btn (hs : ClickFree s) (hbtn : ∀ x, btn t x = btn s x) : ClickFree t :=
  fun x => hbtn x ▸ hs x

theorem ClickFree.noClick (hs : ClickFree s) : NoClick s := by
  obtain ⟨hpressedA, hclickA, hedgeA⟩ := hs .btnA
  obtain ⟨hpressedB, hclickB, hedgeB⟩ := hs .btnB
  exact ⟨hpressedA, hpressedB, hclickA, hclickB, .inr ⟨hedgeA, hedgeB⟩⟩

theorem NoClick.clickFree (hs : NoClick s) (hstage : s.stage ≠ .idle) : ClickFree s := by
  obtain ⟨hpressedA, hpressedB, hclickA, hclickB, hidle | ⟨hedgeA, hedgeB⟩⟩ := hs
  · exact absurd hidle hstage
  · intro x
    cases x
    exacts [⟨hpressedA, hclickA, hedgeA⟩, ⟨hpressedB, hclickB, hedgeB⟩]

/-- The snapshot sees no edge where none is unconsumed (R190). -/
theorem iterStart_clickFree (hs : NoClick s) : ClickFree (iterStart s) := by
  obtain ⟨hpressedA, hpressedB, hclickA, hclickB, -⟩ := hs
  intro x
  cases x <;> simp [*]

/-- With no click about, an action is the interval check, or it only moves the stage (R131, R132). -/
theorem stageAction_of_clickFree (P : Config.Params) (hs : ClickFree s) :
    stageAction P s = analogCheck P s ∨ ∃ v, stageAction P s = setStage v s := by
  obtain e | ⟨-, e⟩ | ⟨x, -, e⟩ | ⟨x, -, e⟩ := stageAction_cases P s
  · exact .inr ⟨s.stage, e⟩
  · exact .inl e
  · obtain ⟨-, -, hedge⟩ := hs x
    exact .inr ⟨_, e.trans (clsEdge_unseen hedge)⟩
  · obtain ⟨-, hclick, -⟩ := hs x
    exact .inr ⟨_, e.trans (clsTo_waits (.inl hclick))⟩

/-- Since its trace was `os`, the block has output nothing; or it has started a conversion or sent a value line, and its
loop is blocked (R150, R151). -/
def SamplerOutputSince (P : Config.Params) (os : List OutEvent) (s : State clockW rawW) : Prop :=
  s.trace = os ∨
    (loopBlocked s = true ∧
      (s.trace = os ++ [.adcStart P.adcChannel] ∨ ∃ v : Raw rawW, s.trace = os ++ [.txLine (valueLine v)]))

/-- The interval check outputs at most a conversion start, and writes no button's registers (R150). -/
theorem analogCheck_samplerOutput (P : Config.Params) (s : State clockW rawW) :
    SamplerOutputSince P s.trace (analogCheck P s) ∧ ∀ x, btn (analogCheck P s) x = btn s x := by
  obtain ⟨-, e⟩ | ⟨-, e⟩ := analogCheck_cases P s <;> rw [e]
  · exact ⟨.inr ⟨(loopBlocked_iff _).mpr (.inr (.inr rfl)), .inl rfl⟩, fun x => by cases x <;> rfl⟩
  · exact ⟨.inl rfl, fun x => btn_setStage _ x s⟩

/-- The delivery of a result outputs at most its value line (R151). -/
theorem deliver_samplerOutput (P : Config.Params) (raw : Raw rawW) (s : State clockW rawW) :
    SamplerOutputSince P s.trace (deliver P raw s) := by
  obtain ⟨hbusy, htrace⟩ | ⟨-, htrace⟩ := deliver_sendsAtMost P raw s
  · exact .inr ⟨(loopBlocked_iff _).mpr (.inl hbusy), .inr ⟨_, htrace⟩⟩
  · exact .inl htrace

/-- What a loop that starts without a click keeps (R263). -/
def RunsWithoutClick (P : Config.Params) (os : List OutEvent) (s : State clockW rawW) : Prop :=
  NoClick s ∧ SamplerOutputSince P os s

/-- An action runs within the iteration and only while nothing has been output (R191). -/
theorem stageAction_runsWithoutClick (hs : RunsWithoutClick P os s) (hb : loopBlocked s = false) :
    RunsWithoutClick P os (stageAction P s) := by
  obtain ⟨hnone, rfl | ⟨hblocked, -⟩⟩ := hs
  · have hfree : ClickFree s := hnone.clickFree fun hidle => by simp [loopBlocked, hidle] at hb
    obtain e | ⟨v, e⟩ := stageAction_of_clickFree P hfree <;> rw [e]
    · obtain ⟨hout, hbtn⟩ := analogCheck_samplerOutput P s
      exact ⟨(hfree.of_btn hbtn).noClick, hout⟩
    · exact ⟨(hfree.of_btn fun x => btn_setStage v x s).noClick, .inl rfl⟩
  · rw [hblocked] at hb
    cases hb

end

variable {i : Instr} {s t u : State}

/-- The snapshot sees no edge, a delivery is in the iteration and may send its value, and a line's end leaves all the
buttons' registers. -/
theorem Resumes.runsWithoutClick (hr : Resumes s i u) (hs : NoClick s) : RunsWithoutClick hardware s.trace u := by
  cases hr with
  | iter => exact ⟨(iterStart_clickFree hs).noClick, .inl rfl⟩
  | adcDone raw hwait =>
    have hfree : ClickFree s := hs.clickFree (by simp [hwait])
    exact ⟨(hfree.of_btn (btn_deliver hardware raw s)).noClick, deliver_samplerOutput hardware raw s⟩
  | txDone => exact ⟨hs, .inl rfl⟩

theorem exec_mainLoop_withoutClick (hi : contextOf i = .mainLoop) (hs : NoClick s) (h : exec i s = .next t) :
    RunsWithoutClick hardware s.trace t := by
  obtain ⟨rfl, -⟩ | ⟨u, hr, hrun⟩ := exec_mainLoop_cases hi h
  · exact ⟨hs, .inl rfl⟩
  · obtain ⟨ht, -⟩ := runLoop_keeps hardware (RunsWithoutClick hardware s.trace)
      (fun _ hv hb _ => stageAction_runsWithoutClick hv hb) u t hr.stage_ne_unused (hr.runsWithoutClick hs) hrun
    exact ht

theorem Settled.noClick (hs : Settled s) : NoClick s := by
  obtain ⟨hquiescent, hpressedA, hpressedB, hclickA, hclickB⟩ := hs
  exact ⟨hpressedA, hpressedB, hclickA, hclickB, .inl ((loopIdle_iff s).mp hquiescent).1⟩

/-- Settles O56: a TICK touches no button, and a loop that starts without a click ends without one and has output at most
what the sampler does. -/
theorem settledSendsNoClickLine : Obligations.SettledSendsNoClickLine := by
  refine ⟨fun _ => Settled.noClick, fun i s t hs hA hB h => ?_⟩
  cases i with
  | tick => cases h; exact ⟨hs, .inr (.inl rfl)⟩
  | edgeA => exact absurd rfl hA
  | edgeB => exact absurd rfl hB
  | iter | adcDone | txDone =>
    obtain ⟨ht, hnothing | ⟨-, hout⟩⟩ := exec_mainLoop_withoutClick rfl hs h
    exacts [⟨ht, .inl hnothing⟩, ⟨ht, .inr (.inr hout)⟩]

/-! ### The blocking transmit -/

/-- Settles O40: the interrupts keep the main loop's registers, ITER is held, and ADC_DONE is ignored outside the wait. -/
theorem onlyTxDoneEndsTransmit : Obligations.OnlyTxDoneEndsTransmit := by
  intro i s t hbusy hstage hi h
  cases i with
  | tick | edgeA | edgeB =>
    have k := exec_keepsMainLoopSide rfl h
    exact ⟨k.txBusy.trans hbusy, k.stage, k.pendingClickTime .btnA, k.pendingClickTime .btnB, k.lastSampleTime⟩
  | iter =>
    rw [exec_of_not_accepts (accepts_iter_of_busy (.inr hbusy))] at h
    cases h
    exact ⟨hbusy, rfl, rfl, rfl, rfl⟩
  | adcDone raw =>
    rw [exec_adcDone_ignored raw hstage] at h
    cases h
    exact ⟨hbusy, rfl, rfl, rfl, rfl⟩
  | txDone => exact absurd rfl hi

/-! ### Reset -/

/-- Settles O13: the reset state is a literal. -/
theorem resetValues : Obligations.ResetValues := by
  unfold Obligations.ResetValues
  decide

/-- A drive of the reset line is taken first, and one that resets leaves the reset state at that level, the inputs
behind it still offered (R240; log entry 3). -/
theorem step_rst_of_driveResets {level : Bool} {rest : List HostInput} (hin : s.inputs = .rst level :: rest)
    (hresets : driveResets level s = true) : step s = .next { State.reset with rst := level, inputs := rest } := by
  have hfirst : firstAccepted (inputAccepted s) s.inputs = some (.rst level, rest) :=
    hin ▸ firstAccepted_skip _ _ rest rfl [] (by simp)
  have hfetch : fetch s = .resetLine (driveRst level { s with inputs := rest }) := by
    simp [fetch, hfirst, hresets]
  rw [step, stepBy, hfetch]
  exact congrArg Host.Outcome.next (if_pos hresets)

/-- While `rst` is asserted no offer may be taken, reserved or not (R240; log entry 12). -/
theorem inputAccepted_offer_of_rst (hrst : s.rst = true) (w : EventWord) : inputAccepted s (.offer w) = false := by
  cases hdec : decodeAt 16 w <;> simp [inputAccepted, offerAccepted, hdec, hrst]

/-- Settles O14: asserting the line resets, so does releasing it after that, and in between nothing is taken. -/
theorem resetInput : Obligations.ResetInput := by
  refine ⟨fun s rest hin => step_rst_of_driveResets hin rfl, fun s hrst hstage hoffers => ?_,
    fun s rest hrst hin => step_rst_of_driveResets hin hrst⟩
  refine stepRestsWithoutAcceptableInput s hstage fun x hx => ?_
  obtain ⟨w, rfl⟩ := hoffers x hx
  exact inputAccepted_offer_of_rst hrst w

/-- Settles O15: reset leaves the loop idle with no line outstanding, where either completion is ignored. -/
theorem resetAbandonsWaits : Obligations.ResetAbandonsWaits := fun s raw _ =>
  have hstage : (applyReset s).stage = .idle := rfl
  ⟨hstage, rfl, exec_adcDone_ignored raw (by simp [hstage]), exec_txDone_ignored rfl⟩

/-! ### The startup window -/

/-- An edge within the debounce window is only acknowledged (R110). -/
theorem edge_discarded {clockW rawW : Nat} {P : Config.Params} {x : Button} {s : State clockW rawW}
    (h : elapsed s.clock (btn s x).lastRecordedTime ≤ P.debounceTime) : edge P x s = emit (.edgeAck x) s := by
  rw [edge_eq_ite, if_neg (Nat.not_lt.mpr h)]

/-- A gate still at 0 makes the time since reset the time since the last accepted edge (R256). -/
theorem edge_discarded_at_startup {x : Button} (hclock : s.clock.toNat ≤ 50) (hgate : (btn s x).lastRecordedTime = 0) :
    edge hardware x s = emit (.edgeAck x) s :=
  edge_discarded (by simpa [hgate, elapsed] using hclock)

/-- Settles O20: the law of the startup window, for both buttons. -/
theorem startupEdgesDiscarded : Obligations.StartupEdgesDiscarded := fun _ hclock =>
  ⟨fun hgate => congrArg Host.Outcome.next (edge_discarded_at_startup hclock hgate),
    fun hgate => congrArg Host.Outcome.next (edge_discarded_at_startup hclock hgate)⟩

end Sys2Proof.Machine
